-- ==== Sys2Proof/Word.lean ====
section
/-! DEFINITION. The word: "a word of width N is an unsigned integer v with 0 <= v < 2^N" (R12). The width is a parameter
of the instance (R7), so a word is a natural number together with this check. Log entry 2. -/

namespace Sys2Proof

/-- `v` is a word of width `W` (R12). -/
def wordFits (W v : Nat) : Bool :=
  decide (v < 2 ^ W)

end Sys2Proof
end

