-- ==== Sys2Proof/Config.lean ====
section
/-! DEFINITION. What an implementation fixes (R11) and the one free value of the spec (R15). -/

namespace Sys2Proof.Config

/-- `STRATEGY` (R9): which datapath an instance is built with. -/
inductive Strategy where
  | portable
  | native
  deriving DecidableEq, Repr

/-- The parameters of R11 that a rule reads. `LAT` and `PORT_BINDING` are read by no rule, and `NCTX` is the number of
instances of `Machine/Platform.lean`. -/
structure Params where
  /-- Operand word width, at least 1 (R7). -/
  W : Nat
  /-- Width of the portable strategy's scratch, at least `2 * W` (R8). -/
  SW : Nat
  /-- The datapath (R9). -/
  strategy : Strategy
  /-- `DEBUG_POISON` (R10). -/
  debugPoison : Bool
  deriving DecidableEq, Repr

/-- The legal values of R11. -/
def Params.wf (p : Params) : Bool :=
  decide (1 ≤ p.W) && decide (2 * p.W ≤ p.SW)

/-- The same instance, built with or without debug poisoning (R10). -/
def Params.withDebugPoison (p : Params) (d : Bool) : Params :=
  { p with debugPoison := d }

/-- The same instance, built with another datapath (R8, R9). -/
def Params.withDatapath (p : Params) (strategy : Strategy) (SW : Nat) : Params :=
  { p with strategy := strategy, SW := SW }

/-- The defaults of R11. -/
def defaults : Params where
  W := 32
  SW := 64
  strategy := .portable
  debugPoison := false

/-- `AnyBit()` (R15): the bit drawn at draw number `k` of stream `stream`. It has no body, so nothing can be proved of
its value. Log entry 5. -/
opaque anyBit (stream k : Nat) : Bool

end Sys2Proof.Config
end

