-- ==== Sys2Proof/Syntax.lean ====
section
/-! DEFINITION. The nine commands (R2), one constructor per row of the opcode table. -/

namespace Sys2Proof

/-- A command with the operand fields it uses (R65, column "uses"); ignored fields (R68) are not part of it. -/
inductive Instr where
  /-- `declare()` (R100). -/
  | decl
  /-- `get_carry() -> bit` (R101). -/
  | getc
  /-- `set_carry(v)` (R102). -/
  | setc (v : Nat)
  /-- `r = x + y`, sets the carry (R121). -/
  | adds (x y : Nat)
  /-- `r = x + y + carry`, leaves the carry undefined (R120). -/
  | addc (x y : Nat)
  /-- `r = x + y + carry`, sets the carry (R122). -/
  | addcs (x y : Nat)
  /-- `r = x - y`, sets the carry (R124). -/
  | subs (x y : Nat)
  /-- `r = x - y - carry`, leaves the carry undefined (R123). -/
  | subc (x y : Nat)
  /-- `r = x - y - carry`, sets the carry (R125). -/
  | subcs (x y : Nat)
  deriving DecidableEq, Repr

/-- The commands that read the carry (R19, "consuming command"). -/
def Instr.consuming : Instr → Bool
  | .decl => false
  | .getc => true
  | .setc _ => false
  | .adds _ _ => false
  | .addc _ _ => true
  | .addcs _ _ => true
  | .subs _ _ => false
  | .subc _ _ => true
  | .subcs _ _ => true

/-- The commands that leave the carry defined (R19, "setting command"). -/
def Instr.setting : Instr → Bool
  | .decl => false
  | .getc => false
  | .setc _ => true
  | .adds _ _ => true
  | .addc _ _ => false
  | .addcs _ _ => true
  | .subs _ _ => true
  | .subc _ _ => false
  | .subcs _ _ => true

/-- The commands that leave the carry undefined (R19, "poisoning command"). -/
def Instr.poisoning : Instr → Bool
  | .decl => true
  | .getc => true
  | .setc _ => false
  | .adds _ _ => false
  | .addc _ _ => true
  | .addcs _ _ => false
  | .subs _ _ => false
  | .subc _ _ => true
  | .subcs _ _ => false

end Sys2Proof
end

