-- ==== Sys2Proof/WellFormed.lean ====
section
/-! DEFINITION. Which commands exist at width `W`: every operand is a `W`-bit word (R12, R42, R61). -/

namespace Sys2Proof

/-- Every operand the command carries fits its port (R61). -/
def Instr.wf (W : Nat) : Instr → Bool
  | .decl => true
  | .getc => true
  | .setc v => wordFits W v
  | .adds x y => wordFits W x && wordFits W y
  | .addc x y => wordFits W x && wordFits W y
  | .addcs x y => wordFits W x && wordFits W y
  | .subs x y => wordFits W x && wordFits W y
  | .subc x y => wordFits W x && wordFits W y
  | .subcs x y => wordFits W x && wordFits W y

end Sys2Proof
end

