-- ==== Sys2Proof/Decode.lean ====
section
/-! DEFINITION. The command word, the decoder, the encoder and the response word (R63 to R70), for every width `W`. -/

namespace Sys2Proof

/-- The slice `v[hi:lo]` of R12. -/
def slice (hi lo v : Nat) : Nat :=
  v / 2 ^ lo % 2 ^ (hi - lo + 1)

/-- `CW = op * 2^(2W) + x * 2^W + y` (R63). -/
def packWord (W op : Nat) (x y : Nat) : Nat :=
  op * 2 ^ (2 * W) + x * 2 ^ W + y

/-- The field `op` of a command word (R63). -/
def opField (W : Nat) (cw : Nat) : Nat :=
  slice (2 * W + 3) (2 * W) cw

/-- The field `x` of a command word (R63). -/
def xField (W : Nat) (cw : Nat) : Nat :=
  slice (2 * W - 1) W cw

/-- The field `y` of a command word (R63). -/
def yField (W : Nat) (cw : Nat) : Nat :=
  slice (W - 1) 0 cw

/-- Why a number is not a command. -/
inductive DecodeError where
  /-- `Reserved(op)` of R69, one of the seven opcodes of R70. -/
  | reserved (op : Nat)
  /-- The number has a bit above the `4 + 2W` of format C (R63), so no port can carry it. Log entry 8. -/
  | tooWide
  deriving DecidableEq, Repr

/-- The opcode map of R65 and R69: what `op` selects, given the two operand fields. -/
def decodeFields (op : Nat) (x y : Nat) : Except DecodeError Instr :=
  match op with
  | 0x0 => .ok .decl
  | 0x1 => .ok .getc
  | 0x2 => .ok (.setc x)
  | 0x9 => .ok (.adds x y)
  | 0xA => .ok (.addc x y)
  | 0xB => .ok (.addcs x y)
  | 0xD => .ok (.subs x y)
  | 0xE => .ok (.subc x y)
  | 0xF => .ok (.subcs x y)
  | op => .error (.reserved op)

/-- `Decode(CW)` of R69, total on every number. -/
def decode (W : Nat) (cw : Nat) : Except DecodeError Instr :=
  if cw < 2 ^ (4 + 2 * W) then decodeFields (opField W cw) (xField W cw) (yField W cw) else .error .tooWide

/-- The opcode of a command (R65). -/
def Instr.opcode : Instr → Nat
  | .decl => 0x0
  | .getc => 0x1
  | .setc _ => 0x2
  | .adds _ _ => 0x9
  | .addc _ _ => 0xA
  | .addcs _ _ => 0xB
  | .subs _ _ => 0xD
  | .subc _ _ => 0xE
  | .subcs _ _ => 0xF

/-- `Encode` of R69: the canonical command word, with 0 in every ignored field (R68). -/
def encode (W : Nat) (i : Instr) : Nat :=
  match i with
  | .decl => packWord W i.opcode 0 0
  | .getc => packWord W i.opcode 0 0
  | .setc v => packWord W i.opcode v 0
  | .adds x y => packWord W i.opcode x y
  | .addc x y => packWord W i.opcode x y
  | .addcs x y => packWord W i.opcode x y
  | .subs x y => packWord W i.opcode x y
  | .subc x y => packWord W i.opcode x y
  | .subcs x y => packWord W i.opcode x y

/-- One of the seven opcodes of R70. -/
def reservedOpcode (op : Nat) : Bool :=
  [0x3, 0x4, 0x5, 0x6, 0x7, 0x8, 0xC].contains op

/-- The canonical command words of R68, read off the fields alone: a legal opcode, and 0 in every field that the opcode
ignores. -/
def canonicalWord (W : Nat) (cw : Nat) : Bool :=
  let op := opField W cw
  decide (cw < 2 ^ (4 + 2 * W)) && !reservedOpcode op
    && (!(op == 0x0 || op == 0x1) || (xField W cw == 0 && yField W cw == 0))
    && (!(op == 0x2) || yField W cw == 0)

/-- What the host takes from a response: `some r` when `res_rv = 1`, `none` when it is 0 (R61). -/
abbrev Response := Option Nat

/-- The response word `RW = rv ‖ r` (R64). While `rv = 0` the `r` bits are not part of the response: they are whatever
`junk` the ports carry. Log entry 11. -/
def encodeResponse (W junk : Nat) : Response → Nat
  | some r => 2 ^ W + r
  | none => junk % 2 ^ W

/-- Reading a response word: `rv = RW[W:W]`, `r = RW[W-1:0]` (R64). -/
def decodeResponse (W : Nat) (rw : Nat) : Response :=
  if slice W W rw = 1 then some (slice (W - 1) 0 rw) else none

/-- The decoder on a word numbered as the opcode table numbers it: the table is written at `W = 32`, its word is `CW`,
and bit 0 of it is the least significant bit of `CW` (R12, R63). Log entry 9. -/
def decodeTableWord (nbits w : Nat) : Option Instr :=
  (decode 32 (w % 2 ^ nbits)).toOption

end Sys2Proof
end

