-- ==== Sys2Proof/Machine/State.lean ====
section
/-! DEFINITION. The state of one CPAS instance, its configuration, and what its host presents and records. -/

namespace Sys2Proof.Machine

/-- The carry condition: CD and CF as the one value R23 asks for. While CD = 0 no bit is held (R23, U11). Log entry 6. -/
inductive Carry where
  /-- CD = 0: the carry is undefined. -/
  | undef
  /-- CD = 1 and CF = `b`. -/
  | defined (b : Bool)
  deriving DecidableEq, Repr

/-- What the host drives on the input ports for one step (R61): `rst`, and the command presented, if any, as its command
word (R63). -/
structure HostInput where
  rst : Bool
  cmd : Option Nat
  deriving DecidableEq, Repr

/-- One instance with its host's script and record. The spec's own state is `carry` and `pv` (R35); `cfg` is what the
instance was built with (R11) and no step changes it; the last four fields are the model's own (log entries 3 to 5). -/
structure State where
  /-- The parameters of this instance. Log entry 1. -/
  cfg : Config.Params
  /-- CD and CF (R22, R23). -/
  carry : Carry
  /-- PV (R28). -/
  pv : Bool
  /-- What the host presents next, oldest first (R21, R60). -/
  inputs : List HostInput
  /-- The responses so far, in issue order (R238). -/
  responses : List Response
  /-- Which stream of draws this instance has (R15, R206). Log entries 5 and 17. -/
  drawStream : Nat
  /-- How many times `AnyBit()` was called (R15). -/
  draws : Nat
  deriving DecidableEq, Repr

/-- The hardware faults of CPAS: none. "No failure mode exists; there is no error channel" (R127, R190, R192), so
`step` and `exec` never answer a fault, and this is neither safe nor unsafe but the spec's own words. Log entry 10. -/
inductive Fault where
  deriving DecidableEq, Repr

/-- Why a step has no meaning. -/
inductive Refusal where
  /-- Raised by an arm of `exec` whose instruction has no meaning yet; no arm is left that raises it. Safe. -/
  | notModelled (mnemonic : String)
  /-- Raised by `step` on one of the seven reserved opcodes, to which the spec gives no step (R70, U6). Safe. -/
  | reservedOpcode (op : Nat)
  /-- Raised by `step` on a number wider than the command ports, which no host can present (R61, R63). Safe. Log
  entry 8. -/
  | commandTooWide
  deriving DecidableEq, Repr

/-- CD (R23). -/
def Carry.isDefined : Carry → Bool
  | .undef => false
  | .defined _ => true

/-- Reset (R29) of an instance with the default parameters of R11, before the host has presented anything. -/
def State.reset : State where
  cfg := Config.defaults
  carry := .undef
  pv := false
  inputs := []
  responses := []
  drawStream := 0
  draws := 0

end Sys2Proof.Machine
end

