-- ==== Sys2Proof/Machine/Operands.lean ====
section
/-! DEFINITION. Result words of the commands, over the integers and then reduced (R13, R67, R126, R130). -/

namespace Sys2Proof.Machine

/-- `a mod m` for an integer `a` and `m > 0`, as R13 defines it. -/
def modWord (W : Nat) (a : Int) : Nat :=
  (a % (2 ^ W : Nat)).toNat

/-- The exact sum of an addition with carry-in `c` (R120 to R122). -/
def exactSum (x y : Nat) (c : Bool) : Int :=
  (x : Int) + y + c.toNat

/-- The exact difference of a subtraction with borrow-in `c` (R123 to R125). -/
def exactDiff (x y : Nat) (c : Bool) : Int :=
  (x : Int) - y - c.toNat

/-- `zext_W(c)`: the result of GETC, the word 0 or the word 1 (R67, R101). -/
def carryWord (c : Bool) : Nat :=
  c.toNat

/-- `~v` at width `W` (R13). -/
def complementWord (W : Nat) (v : Nat) : Nat :=
  2 ^ W - 1 - v

end Sys2Proof.Machine
end

