-- ==== Sys2Proof/Machine/Flags.lean ====
section
/-! DEFINITION. The carry computations: every way a command finds the bit it passes to `SetCarry` (R102, R121 to R125),
and the word operations as pairs of result word and carry-out. -/

namespace Sys2Proof.Machine

/-- Carry-out of an addition: 1 iff the exact sum does not fit in `W` bits (R121, R122). -/
def sumCarry (W : Nat) (sum : Int) : Bool :=
  decide (sum ≥ (2 ^ W : Nat))

/-- Borrow-out of a subtraction: 1 iff the exact difference is negative (R124, R125). -/
def diffBorrow (diff : Int) : Bool :=
  decide (diff < 0)

/-- The bit `set_carry(v)` forces: 0 if `v` is zero, 1 otherwise (R102). -/
def setcBit (v : Nat) : Bool :=
  v != 0

/-- The architectural addition at width `W`: result word and carry-out (R120 to R122). -/
def addWords (W : Nat) (x y : Nat) (c : Bool) : Nat × Bool :=
  (modWord W (exactSum x y c), sumCarry W (exactSum x y c))

/-- The architectural subtraction at width `W`: result word and borrow-out (R123 to R125). -/
def subWords (W : Nat) (x y : Nat) (c : Bool) : Nat × Bool :=
  (modWord W (exactDiff x y c), diffBorrow (exactDiff x y c))

end Sys2Proof.Machine
end

