-- ==== Sys2Proof/Machine/Ops.lean ====
section
/-! DEFINITION. The named operations over the state: the carry primitives of R15, the response (R61), the three shapes of
a word operation (R126), reset (R220) and taking the host's next input (R60). The block takes no exception and returns
from none (R190, R195, R196), so there is no such operation. -/

namespace Sys2Proof.Machine

/-- `ReadCarry()` (R15) with the bit that `AnyBit()` would return given as `draw` (R16). -/
def State.readCarryWith (draw : Bool) (s : State) : Bool × State :=
  match s.carry with
  | .defined b => (b, s)
  | .undef => (draw, { s with pv := if s.cfg.debugPoison then true else s.pv, draws := s.draws + 1 })

/-- `ReadCarry()` (R15): the draw comes from this instance's stream. -/
def State.readCarry (s : State) : Bool × State :=
  s.readCarryWith (Config.anyBit s.drawStream s.draws)

/-- `SetCarry(b)` (R15). -/
def State.setCarry (b : Bool) (s : State) : State :=
  { s with carry := .defined b }

/-- `PoisonCarry()` (R15). -/
def State.poisonCarry (s : State) : State :=
  { s with carry := .undef }

/-- Give the response: `some r` for `r <- v ; rv <- 1`, `none` for `rv <- 0` (R14, R61). -/
def State.respond (resp : Response) (s : State) : State :=
  { s with responses := s.responses ++ [resp] }

/-- A word operation that neither needs the carry nor loses its own: ADDS, SUBS (R126). `p` is the result word and the
carry-out. -/
def State.opSetting (p : Nat × Bool) (s : State) : State :=
  (s.respond (some p.1)).setCarry p.2

/-- A word operation that consumes the carry and leaves it undefined: ADDC, SUBC (R126). `f` gives the result word and
the carry-out for each carry-in. -/
def State.opConsuming (f : Bool → Nat × Bool) (s : State) : State :=
  let read := s.readCarry
  (read.2.respond (some (f read.1).1)).poisonCarry

/-- A word operation that consumes the carry and sets it: ADDCS, SUBCS (R126). -/
def State.opConsumingSetting (f : Bool → Nat × Bool) (s : State) : State :=
  let read := s.readCarry
  (read.2.respond (some (f read.1).1)).setCarry (f read.1).2

/-- The output `dbg_pv`: PV, and constant 0 when `DEBUG_POISON = 0` (R28, R61). -/
def State.dbgPv (s : State) : Bool :=
  s.cfg.debugPoison && s.pv

/-- The reset event (R220): the carry undefined, PV cleared; no response. Log entry 7. -/
def State.resetEvent (s : State) : State :=
  { s with carry := .undef, pv := false }

/-- The input by which the host presents a command (R60). -/
def HostInput.command (cw : Nat) : HostInput where
  rst := false
  cmd := some cw

/-- What one step has to do. -/
inductive Accepted where
  /-- No command was accepted: the state after this step is the one given. -/
  | done (s : State)
  /-- The command `cw` was accepted, and is to be performed in the state given. -/
  | perform (cw : Nat) (s : State)
  deriving DecidableEq, Repr

/-- Take the host's next input (R60, R61). `rst` wins over a command presented with it, which is abandoned (R194,
R220); with neither, or when the host issues no more (R238), the block keeps its state (R27). Log entries 3 and 7.
DESIGN CHOICE: that `rst` also wins, and nothing is refused, when the word beside it is no command, a reserved opcode say,
is the model's; the spec does not speak of that case (unsafe, log entry 16). -/
def State.accept (s : State) : Accepted :=
  match s.inputs with
  | [] => .done s
  | i :: rest =>
    if i.rst then .done { s with inputs := rest }.resetEvent
    else
      match i.cmd with
      | none => .done { s with inputs := rest }
      | some cw => .perform cw { s with inputs := rest }

/-- The refusal that stands for a word the decoder rejects (R70, log entry 8). -/
def refusalOf : DecodeError → Refusal
  | .reserved op => .reservedOpcode op
  | .tooWide => .commandTooWide

end Sys2Proof.Machine
end

