-- ==== Sys2Proof/Machine/CarryState.lean ====
section
/-! DEFINITION. The Carry State commands DECL, GETC and SETC (R100 to R103). -/

namespace Sys2Proof.Machine

/-- DECL (R100). -/
def execDecl (s : State) : Host.Outcome State Fault Refusal :=
  .next (s.poisonCarry.respond none)

/-- GETC (R101). -/
def execGetc (s : State) : Host.Outcome State Fault Refusal :=
  let read := s.readCarry
  .next (read.2.respond (some (carryWord read.1))).poisonCarry

/-- SETC (R102). -/
def execSetc (v : Nat) (s : State) : Host.Outcome State Fault Refusal :=
  .next ((s.setCarry (setcBit v)).respond none)

end Sys2Proof.Machine
end

