-- ==== Sys2Proof/Machine/WordArithmetic.lean ====
section
/-! DEFINITION. The six word operations (R120 to R127), each one of the three shapes of R126 over the architectural
addition or subtraction at the instance's width. -/

namespace Sys2Proof.Machine

/-- ADDC (R120). -/
def execAddc (x y : Nat) (s : State) : Host.Outcome State Fault Refusal :=
  .next (s.opConsuming (addWords s.cfg.W x y))

/-- ADDS (R121). -/
def execAdds (x y : Nat) (s : State) : Host.Outcome State Fault Refusal :=
  .next (s.opSetting (addWords s.cfg.W x y false))

/-- ADDCS (R122). -/
def execAddcs (x y : Nat) (s : State) : Host.Outcome State Fault Refusal :=
  .next (s.opConsumingSetting (addWords s.cfg.W x y))

/-- SUBC (R123). -/
def execSubc (x y : Nat) (s : State) : Host.Outcome State Fault Refusal :=
  .next (s.opConsuming (subWords s.cfg.W x y))

/-- SUBS (R124). -/
def execSubs (x y : Nat) (s : State) : Host.Outcome State Fault Refusal :=
  .next (s.opSetting (subWords s.cfg.W x y false))

/-- SUBCS (R125). -/
def execSubcs (x y : Nat) (s : State) : Host.Outcome State Fault Refusal :=
  .next (s.opConsumingSetting (subWords s.cfg.W x y))

end Sys2Proof.Machine
end

