-- ==== Sys2Proof/Machine/Dispatch.lean ====
section
/-! DEFINITION. The dispatch of R74: one arm per command. -/

namespace Sys2Proof.Machine

def exec (i : Instr) (s : State) : Host.Outcome State Fault Refusal :=
  match i with
  | .decl => Sys2Proof.Machine.execDecl s
  | .getc => Sys2Proof.Machine.execGetc s
  | .setc v => Sys2Proof.Machine.execSetc v s
  | .adds x y => Sys2Proof.Machine.execAdds x y s
  | .addc x y => Sys2Proof.Machine.execAddc x y s
  | .addcs x y => Sys2Proof.Machine.execAddcs x y s
  | .subs x y => Sys2Proof.Machine.execSubs x y s
  | .subc x y => Sys2Proof.Machine.execSubc x y s
  | .subcs x y => Sys2Proof.Machine.execSubcs x y s

end Sys2Proof.Machine
end

