-- ==== Sys2Proof/Machine/Step.lean ====
section
/-! DEFINITION. One step (R16, R74): take the host's next input, decode the command, perform it. -/

namespace Sys2Proof.Machine

/-- One step of the machine. -/
def step (s : State) : Host.Outcome State Fault Refusal :=
  match s.accept with
  | .done t => .next t
  | .perform cw t =>
    match decode t.cfg.W cw with
    | .ok i => exec i t
    | .error e => .refused (refusalOf e)

/-- The host presents the command word `w` (of `nbits` bits, numbered as the opcode table numbers them) before anything
else it was going to present. Log entries 3 and 9. -/
def State.withFetchWord (s : State) (nbits w : Nat) : State :=
  { s with inputs := HostInput.command (w % 2 ^ nbits) :: s.inputs }

end Sys2Proof.Machine
end

