-- ==== Sys2Proof/Machine/Assembly.lean ====
section
/-! DEFINITION. The assembly syntax of R72: one line of text to a command, and a command back to the tokens of its line.
The machine sees command words only; this is the spec's notation for programs. Log entry 15. -/

namespace Sys2Proof.Assembly

/-- What a line is made of. -/
inductive Token where
  /-- A mnemonic, or the host's name for where a result goes. -/
  | name (s : String)
  | number (n : Nat)
  | equals
  | comma
  | opening
  | closing
  deriving DecidableEq, Repr

/-- A line read: the host's name for the result, which is not encoded (R72), and the command. -/
structure Line where
  rd : Option String
  command : Instr
  deriving DecidableEq, Repr

/-- What a character is worth as a digit of a base up to 16: its place among the digits of that base, either case. -/
def digitValue (base : Nat) (c : Char) : Option Nat :=
  ("0123456789ABCDEF".toList.take base).idxOf? c.toUpper

/-- The number that a word spells in a base, its last digit of weight 1; none if one of its characters is no digit. -/
def numeral (base : Nat) (word : List Char) : Option Nat :=
  (word.mapM (digitValue base)).map fun ds => Nat.ofDigits base ds.reverse

/-- "literals are decimal or `0x` hexadecimal" (R72). -/
def literal : List Char → Option Nat
  | '0' :: 'x' :: c :: cs => numeral 16 (c :: cs)
  | cs => numeral 10 cs

/-- The token of a finished word: a literal when it begins with a digit, a name otherwise, nothing when it is empty. -/
def wordToken : List Char → Option (List Token)
  | [] => some []
  | c :: cs =>
    match digitValue 10 c with
    | some _ => (literal (c :: cs)).map fun n => [.number n]
    | none => some [.name (String.ofList (c :: cs))]

/-- The token of a character outside a word; blanks give none. -/
def markToken (c : Char) : Option (List Token) :=
  if c = ' ' then some []
  else if c = '=' then some [.equals]
  else if c = ',' then some [.comma]
  else if c = '(' then some [.opening]
  else if c = ')' then some [.closing]
  else none

/-- The tokens of a line, with the word being read; "`;` starts a comment" (R72). -/
def lex : (word : List Char) → List Char → Option (List Token)
  | word, [] => wordToken word
  | word, c :: cs =>
    if c = ';' then wordToken word
    else if c.isAlphanum || c = '_' then lex (word ++ [c]) cs
    else
      match wordToken word, markToken c, lex [] cs with
      | some a, some b, some rest => some (a ++ b ++ rest)
      | _, _, _ => none

/-- Does the command give a result (R61, D17)? -/
def hasResult : Instr → Bool
  | .decl => false
  | .getc => true
  | .setc _ => false
  | .adds _ _ => true
  | .addc _ _ => true
  | .addcs _ _ => true
  | .subs _ _ => true
  | .subc _ _ => true
  | .subcs _ _ => true

/-- The command that a mnemonic and its operands stand for. There are no pseudo-instructions (R73). -/
def command (mnemonic : String) (operands : List Nat) : Option Instr :=
  match operands with
  | [] => if mnemonic = "DECL" then some .decl else if mnemonic = "GETC" then some .getc else none
  | [v] => if mnemonic = "SETC" then some (.setc v) else none
  | [x, y] =>
    if mnemonic = "ADDS" then some (.adds x y)
    else if mnemonic = "ADDC" then some (.addc x y)
    else if mnemonic = "ADDCS" then some (.addcs x y)
    else if mnemonic = "SUBS" then some (.subs x y)
    else if mnemonic = "SUBC" then some (.subc x y)
    else if mnemonic = "SUBCS" then some (.subcs x y)
    else none
  | _ => none

/-- The source's spellings in call form, "accepted as the same commands" (R72). -/
def callCommand (name : String) (operands : List Nat) : Option Instr :=
  if name = "declare" then command "DECL" operands
  else if name = "get_carry" then command "GETC" operands
  else if name = "set_carry" then command "SETC" operands
  else if operands.length = 2 then command name operands
  else none

/-- A command without its result name, and whether it was written in call form. -/
def body (name : String) : List Token → Option (Bool × Instr)
  | [] => (command name []).map (false, ·)
  | [.number v] => (command name [v]).map (false, ·)
  | [.number x, .comma, .number y] => (command name [x, y]).map (false, ·)
  | [.opening, .closing] => (callCommand name []).map (true, ·)
  | [.opening, .number v, .closing] => (callCommand name [v]).map (true, ·)
  | [.opening, .number x, .comma, .number y, .closing] => (callCommand name [x, y]).map (true, ·)
  | _ => none

/-- One line at width `W`: a result name stands before the commands that give a result, and may be left out in call
form; operands are `W`-bit literals (R72). -/
def parse (W : Nat) : List Token → Option Line
  | .name rd :: .equals :: .name m :: rest =>
    match body m rest with
    | some (_, i) => if hasResult i && i.wf W then some ⟨some rd, i⟩ else none
    | none => none
  | .name m :: rest =>
    match body m rest with
    | some (isCall, i) => if (isCall || !hasResult i) && i.wf W then some ⟨none, i⟩ else none
    | none => none
  | _ => none

/-- A line of text to a command (R72). -/
def assemble (W : Nat) (text : String) : Option Line :=
  (lex [] text.toList).bind (parse W)

/-- The tokens of a command's line in assembly form (R72). -/
def tokens (rd : String) : Instr → List Token
  | .decl => [.name "DECL"]
  | .getc => [.name rd, .equals, .name "GETC"]
  | .setc v => [.name "SETC", .number v]
  | .adds x y => [.name rd, .equals, .name "ADDS", .number x, .comma, .number y]
  | .addc x y => [.name rd, .equals, .name "ADDC", .number x, .comma, .number y]
  | .addcs x y => [.name rd, .equals, .name "ADDCS", .number x, .comma, .number y]
  | .subs x y => [.name rd, .equals, .name "SUBS", .number x, .comma, .number y]
  | .subc x y => [.name rd, .equals, .name "SUBC", .number x, .comma, .number y]
  | .subcs x y => [.name rd, .equals, .name "SUBCS", .number x, .comma, .number y]

end Sys2Proof.Assembly
end

