-- ==== Sys2Proof/Machine/Chain.lean ====
section
/-! DEFINITION. Command lists and the multi-word chains of `42_multiword_chain.md`: what a host issues, and the value of a
multi-word number (R41). Nothing here adds a command; every step of a chain is a step of `exec` (R172). -/

namespace Sys2Proof.Machine

/-- A list of commands means the composition of its steps (R47, R172). -/
def execList : List Instr → State → Host.Outcome State Fault Refusal
  | [], s => .next s
  | i :: is, s =>
    match exec i s with
    | .next t => execList is t
    | .fault f => .fault f
    | .refused r => .refused r

/-- The value of a multi-word number, word 0 first: the sum of `X_i * 2^(i*W)` (R41). -/
def multiWord (W : Nat) : List Nat → Nat
  | [] => 0
  | w :: ws => w + 2 ^ W * multiWord W ws

/-- The words of an addition after the first, every one with a carry-in: ADDCS, and ADDC for the last word when its
carry-out is not kept (R161, R169). -/
def addTail (keep : Bool) : List (Nat × Nat) → List Instr
  | [] => []
  | [(x, y)] => [if keep then .addcs x y else .addc x y]
  | (x, y) :: p :: ps => .addcs x y :: addTail keep (p :: ps)

/-- The words of a subtraction after the first, every one with a borrow-in (R163, R169). -/
def subTail (keep : Bool) : List (Nat × Nat) → List Instr
  | [] => []
  | [(x, y)] => [if keep then .subcs x y else .subc x y]
  | (x, y) :: p :: ps => .subcs x y :: subTail keep (p :: ps)

/-- The addition chain of R161 for the pairs `(X_i, Y_i)`, word 0 first. For one word it is the single ADDS. -/
def addChain (keep : Bool) : List (Nat × Nat) → List Instr
  | [] => []
  | (x, y) :: ps => .adds x y :: addTail keep ps

/-- The subtraction chain of R163 for the pairs `(X_i, Y_i)`, word 0 first. -/
def subChain (keep : Bool) : List (Nat × Nat) → List Instr
  | [] => []
  | (x, y) :: ps => .subs x y :: subTail keep ps

/-- The idiom of R168: seed the carry with 1 and add the complemented subtrahend words. -/
def complementChain (W : Nat) (ps : List (Nat × Nat)) : List Instr :=
  .setc 1 :: addTail true (ps.map fun p => (p.1, complementWord W p.2))

end Sys2Proof.Machine
end

