-- ==== Sys2Proof/Machine/Datapath.lean ====
section
/-! DEFINITION. The datapaths an instance can be built with (R132, R134, R138), and the commands run on the one that
`STRATEGY` and `SW` select (R8, R9). `exec` uses the architectural functions of Flags.lean, as R9 asks; that the datapaths
compute the same is a statement, not an assumption. -/

namespace Sys2Proof.Machine

/-- `r` and `b` read off the scratch `T` of width `SW` (R132): the low word, and whether any bit above it is set. -/
def scratchOutputs (W SW T : Nat) : Nat × Bool :=
  (slice (W - 1) 0 T, slice (SW - 1) W T != 0)

/-- `portable_add` of R132. -/
def portableAdd (W SW : Nat) (x y : Nat) (c : Bool) : Nat × Bool :=
  scratchOutputs W SW (modWord SW (exactSum x y c))

/-- `portable_sub` of R132. -/
def portableSub (W SW : Nat) (x y : Nat) (c : Bool) : Nat × Bool :=
  scratchOutputs W SW (modWord SW (exactDiff x y c))

/-- The sum bit of one full adder (R138). -/
def sumBit (x y k : Bool) : Bool :=
  (x ^^ y) ^^ k

/-- The carry out of one full adder (R138). -/
def carryBit (x y k : Bool) : Bool :=
  (x && y) || (x && k) || (y && k)

/-- The carry-propagating adder of R138 over the low `n` bits, carry-in `k`: the sum word and the carry-out. -/
def rippleAdder : (n : Nat) → (x y : Nat) → (k : Bool) → Nat × Bool
  | 0, _, _, k => (0, k)
  | n + 1, x, y, k =>
    let high := rippleAdder n (x / 2) (y / 2) (carryBit (x.testBit 0) (y.testBit 0) k)
    ((sumBit (x.testBit 0) (y.testBit 0) k).toNat + 2 * high.1, high.2)

/-- `native_add` of R134. -/
def nativeAdd (W : Nat) (x y : Nat) (c : Bool) : Nat × Bool :=
  rippleAdder W x y c

/-- `native_sub` of R134: the adder on `~y` and `1 - c`, its carry-out inverted. -/
def nativeSub (W : Nat) (x y : Nat) (c : Bool) : Nat × Bool :=
  let sum := rippleAdder W x (complementWord W y) (!c)
  (sum.1, !sum.2)

/-- The addition of the datapath an instance is built with (R9). -/
def builtAdd (p : Config.Params) (x y : Nat) (c : Bool) : Nat × Bool :=
  match p.strategy with
  | .portable => portableAdd p.W p.SW x y c
  | .native => nativeAdd p.W x y c

/-- The subtraction of the datapath an instance is built with (R9). -/
def builtSub (p : Config.Params) (x y : Nat) (c : Bool) : Nat × Bool :=
  match p.strategy with
  | .portable => portableSub p.W p.SW x y c
  | .native => nativeSub p.W x y c

/-- A command performed on the instance's own datapath (R9, R136). The Carry State commands use no datapath (R31). -/
def execBuilt (i : Instr) (s : State) : Host.Outcome State Fault Refusal :=
  match i with
  | .decl => execDecl s
  | .getc => execGetc s
  | .setc v => execSetc v s
  | .adds x y => .next (s.opSetting (builtAdd s.cfg x y false))
  | .addc x y => .next (s.opConsuming (builtAdd s.cfg x y))
  | .addcs x y => .next (s.opConsumingSetting (builtAdd s.cfg x y))
  | .subs x y => .next (s.opSetting (builtSub s.cfg x y false))
  | .subc x y => .next (s.opConsuming (builtSub s.cfg x y))
  | .subcs x y => .next (s.opConsumingSetting (builtSub s.cfg x y))

end Sys2Proof.Machine
end

