-- ==== Sys2Proof/Machine/Platform.lean ====
section
/-! DEFINITION. A platform of `n` instances is the product of `n` independent copies of the machine (R206, R11 `NCTX`).
DESIGN CHOICE: which stream of draws each instance has is the model's (log entry 17): `platformReset` numbers them apart,
and nothing else makes the `drawStream` of two instances differ. -/

namespace Sys2Proof.Machine

/-- A platform after reset: every instance at reset, and instance `k` with the stream of draws number `k`, so that no two
share one. DESIGN CHOICE, log entry 17. -/
def platformReset (n : Nat) : Vector State n :=
  Vector.ofFn fun k => { State.reset with drawStream := k }

/-- One step of instance `k` of a platform; the others do nothing (R47, R206). It is defined for every choice of the
instances' streams, also one in which two share a stream (DESIGN CHOICE, log entry 17). -/
def platformStep {n : Nat} (k : Fin n) (p : Vector State n) : Host.Outcome (Vector State n) Fault Refusal :=
  match step p[k] with
  | .next t => .next (p.set k t)
  | .fault f => .fault f
  | .refused r => .refused r

end Sys2Proof.Machine
end

