-- ==== Sys2Proof/Machine/Run.lean ====
section
/-! DEFINITION. A run: the state after some number of steps (R47, R238). A refusal ends it for good (R70). -/

namespace Sys2Proof.Machine

/-- `k` steps from `s`. -/
def run : Nat → State → Host.Outcome State Fault Refusal
  | 0, s => .next s
  | k + 1, s =>
    match step s with
    | .next t => run k t
    | .fault f => .fault f
    | .refused r => .refused r

end Sys2Proof.Machine
end

