-- ==== Sys2Proof/Safety.lean ====
section
/-! DEFINITION. What counts as a safe run: the host's discipline (R229) and the invariant that every step keeps. -/

namespace Sys2Proof.Machine

/-- The conforming lists of commands (R229), with the marker `d` the list starts from. -/
def conforming : Bool → List Instr → Bool
  | _, [] => true
  | d, i :: is => (!i.consuming || d) && conforming i.setting is

/-- The conforming lists of command words at width `W` (R229): no opcode is reserved, and the commands conform. -/
def conformingWords (W : Nat) : Bool → List Nat → Bool
  | _, [] => true
  | d, cw :: cws =>
    match decode W cw with
    | .ok i => (!i.consuming || d) && conformingWords W i.setting cws
    | .error _ => false

/-- A response word fits the port `res_r` (R61). -/
def responseFits (W : Nat) : Response → Bool
  | some r => wordFits W r
  | none => true

/-- A command the host presents fits the command ports: `4 + 2W` bits (R61, R63). -/
def inputFits (W : Nat) (i : HostInput) : Bool :=
  match i.cmd with
  | some cw => decide (cw < 2 ^ (4 + 2 * W))
  | none => true

/-- The states the hardware can be in: legal parameters (R11), PV only in a debug build (R28), and ports that carry
what fits them (R61). -/
def State.Inv (s : State) : Prop :=
  s.cfg.wf = true ∧ (s.cfg.debugPoison = false → s.pv = false)
    ∧ (∀ i ∈ s.inputs, inputFits s.cfg.W i = true) ∧ ∀ r ∈ s.responses, responseFits s.cfg.W r = true

end Sys2Proof.Machine
end

