-- ==== Sys2Proof/Certificates/Slice0/Obligations.lean ====
section
/-! DEFINITION. The statements for the provers. `R<n>` is a rule of the spec, `D<n>` a decision the spec marks as its own. -/

open Sys2Proof Sys2Proof.Machine

/-! ### Encoding -/

/-- A few words written out from the spec: the examples of R74, R101, R102, R120, R122 to R125 (W = 32), and of
program P5 (W = 4). The opcodes are the spec's own choice (D4). -/
def Obligations.SpecWordsDecode : Prop :=
  decode 32 0x00000000000000000 = .ok .decl
    ∧ decode 32 0x0DEADBEEF12345678 = .ok .decl
    ∧ decode 32 0x10000000000000000 = .ok .getc
    ∧ decode 32 0x20000000100000000 = .ok (.setc 1)
    ∧ decode 32 0x9FFFFFFFF00000001 = .ok (.adds 0xFFFFFFFF 1)
    ∧ decode 32 0xA0000FFFFFFFF0001 = .ok (.addc 0x0000FFFF 0xFFFF0001)
    ∧ decode 32 0xBFFFFFFFF00000000 = .ok (.addcs 0xFFFFFFFF 0)
    ∧ decode 32 0xD000000050000000A = .ok (.subs 5 10)
    ∧ decode 32 0xE000000050000000A = .ok (.subc 5 10)
    ∧ decode 32 0xF0000000000000000 = .ok (.subcs 0 0)
    ∧ decode 4 0xB9A = .ok (.addcs 0x9 0xA)

/-- The opcode map: at every width and for every operand word, `op` alone selects the command, ignored fields hold
anything, and the seven reserved opcodes are refused by number (sections 2 to 5 of `30_encoding.md`, D4 to D6, D27). -/
def Obligations.OpcodeAloneSelectsCommand : Prop :=
  ∀ (W : Nat) (x y : Nat), 1 ≤ W → x < 2 ^ W → y < 2 ^ W →
    decode W (packWord W 0x0 x y) = .ok .decl
      ∧ decode W (packWord W 0x1 x y) = .ok .getc
      ∧ decode W (packWord W 0x2 x y) = .ok (.setc x)
      ∧ decode W (packWord W 0x9 x y) = .ok (.adds x y)
      ∧ decode W (packWord W 0xA x y) = .ok (.addc x y)
      ∧ decode W (packWord W 0xB x y) = .ok (.addcs x y)
      ∧ decode W (packWord W 0xD x y) = .ok (.subs x y)
      ∧ decode W (packWord W 0xE x y) = .ok (.subc x y)
      ∧ decode W (packWord W 0xF x y) = .ok (.subcs x y)
      ∧ ∀ op ∈ [0x3, 0x4, 0x5, 0x6, 0x7, 0x8, 0xC], decode W (packWord W op x y) = .error (.reserved op)

/-- Decoding the encoding of a command gives the command back, at every width and for every operand
(section 4 of `30_encoding.md`, D27). -/
def Obligations.DecodeEncodeRoundTrip : Prop :=
  ∀ (W : Nat) (i : Instr), 1 ≤ W → i.wf W = true → decode W (encode W i) = .ok i

/-- Encoding what a word decodes to gives the word back exactly when the word is canonical and not reserved
(section 4 of `30_encoding.md`, D27). -/
def Obligations.EncodeDecodeExactlyOnCanonicalWords : Prop :=
  ∀ (W : Nat) (cw : Nat), 1 ≤ W →
    ((∃ i, decode W cw = .ok i ∧ encode W i = cw) ↔ canonicalWord W cw = true)

/-- The decoder gives only commands whose operands fit the ports (section 2 of `30_encoding.md`). -/
def Obligations.DecodedCommandsAreWellFormed : Prop :=
  ∀ (W : Nat) (cw : Nat) (i : Instr), 1 ≤ W → decode W cw = .ok i → i.wf W = true

/-- The response word reads back as the response, whatever the `r` bits carry while `rv = 0`
(section 2 of `30_encoding.md`, D17). -/
def Obligations.ResponseWordReadsBack : Prop :=
  ∀ (W junk : Nat) (resp : Response), 1 ≤ W → (∀ r, resp = some r → r < 2 ^ W) →
    encodeResponse W junk resp < 2 ^ (1 + W) ∧ decodeResponse W (encodeResponse W junk resp) = resp

/-- A line of assembly written for a command reads back as that command, with the host's name for the result kept beside
it and not encoded (section 6 of `30_encoding.md`, D26, log entry 15). -/
def Obligations.AssemblyLinesReadBack : Prop :=
  ∀ (W : Nat) (rd : String) (i : Instr), i.wf W = true →
    Assembly.parse W (Assembly.tokens rd i) = some ⟨if Assembly.hasResult i then some rd else none, i⟩

/-! ### The step -/

/-- R74: a step is decode, then the rule of the decoded command; a reserved opcode is refused. The last clause is the
rule's worked example. -/
def Obligations.StepIsDecodeThenRule : Prop :=
  (∀ (s : State) (cw : Nat) (rest : List HostInput) (i : Instr), decode s.cfg.W cw = .ok i →
      step { s with inputs := ⟨false, some cw⟩ :: rest } = exec i { s with inputs := rest })
    ∧ (∀ (s : State) (cw : Nat) (rest : List HostInput) (op : Nat), decode s.cfg.W cw = .error (.reserved op) →
      step { s with inputs := ⟨false, some cw⟩ :: rest } = .refused (.reservedOpcode op))
    ∧ ∀ (s : State) (rest : List HostInput), s.cfg.W = 32 →
      step { s with inputs := ⟨false, some 0x9FFFFFFFF00000001⟩ :: rest }
        = .next { s with inputs := rest, carry := .defined true, responses := s.responses ++ [some 0] }

/-- Reset wins over a command presented with it: the command gives no response and has no effect, the carry becomes
undefined and PV 0; nothing else changes (section 1 of `70_reset_and_hazards.md`, D16). That it wins over a word that is
no command as well is the model's choice (log entry 16). -/
def Obligations.ResetWinsAndAbandonsTheCommand : Prop :=
  ∀ (s : State) (cmd : Option Nat) (rest : List HostInput),
    step { s with inputs := ⟨true, cmd⟩ :: rest } = .next { s with inputs := rest, carry := .undef, pv := false }

/-- The state after reset has the carry undefined and PV 0 (section 3 of `10_state.md`, D16); the parameters are the
defaults of the parameter table of `00_scope.md`. -/
def Obligations.ResetStateHasSpecValues : Prop :=
  State.reset.carry = .undef ∧ State.reset.pv = false ∧ State.reset.dbgPv = false
    ∧ State.reset.cfg = { W := 32, SW := 64, strategy := .portable, debugPoison := false }

/-- R27: between two commands the block keeps its state, and a step that changes the carry performed one of the nine
commands or a reset. -/
def Obligations.OnlyCommandsAndResetChangeTheCarry : Prop :=
  (∀ s : State, s.inputs = [] → step s = .next s)
    ∧ (∀ (s : State) (rest : List HostInput), step { s with inputs := ⟨false, none⟩ :: rest }
        = .next { s with inputs := rest })
    ∧ ∀ s t : State, step s = .next t → t.carry ≠ s.carry →
      ∃ input rest, s.inputs = input :: rest ∧ t.inputs = rest
        ∧ (input.rst = true ∨ ∃ cw i, input.cmd = some cw ∧ decode s.cfg.W cw = .ok i)

/-- A step is refused exactly when the host, with `rst` low, presents one of the seven reserved opcodes, whatever the
state and the operands (sections 5 and 7 of `30_encoding.md`, D6). The invariant says that the ports carry words of their
width (log entry 8). That a reserved opcode beside `rst` high is not refused is the model's choice (log entry 16). -/
def Obligations.RefusedExactlyOnReservedOpcodes : Prop :=
  ∀ (s : State) (why : Refusal), s.Inv →
    (step s = .refused why ↔
      ∃ cw rest, s.inputs = ⟨false, some cw⟩ :: rest ∧ reservedOpcode (opField s.cfg.W cw) = true
        ∧ why = .reservedOpcode (opField s.cfg.W cw))

/-- The seven reserved opcodes have no step: whatever the operand fields, the machine refuses them under their number
(section 5 of `30_encoding.md`, D6). -/
def Obligations.ReservedOpcodesAreRefused : Prop :=
  ∀ (s : State) (op : Nat) (x y : Nat) (rest : List HostInput), 1 ≤ s.cfg.W → x < 2 ^ s.cfg.W → y < 2 ^ s.cfg.W →
    op ∈ [0x3, 0x4, 0x5, 0x6, 0x7, 0x8, 0xC] →
    step { s with inputs := ⟨false, some (packWord s.cfg.W op x y)⟩ :: rest } = .refused (.reservedOpcode op)

/-! ### The commands: result, carry, PV, and nothing else

The numbers of the opcodes in R120 to R125 are the spec's own choice (D4). A bit `c` that only a defined carry fixes is a
free value otherwise (log entry 5). -/

/-- DECL: no result, the carry undefined, PV and everything else as before (`40_carry_state.md`, D15). -/
def Obligations.DeclMakesTheCarryUndefined : Prop :=
  ∀ s : State, exec .decl s = .next { s with carry := .undef, responses := s.responses ++ [none] }

/-- GETC: the result is the carry as the word 0 or 1, and the carry becomes undefined. On an undefined carry the bit is
a draw, and PV is set in a debug build (`40_carry_state.md`, D12, D14; `10_state.md`, D10, D11). -/
def Obligations.GetcReturnsAndConsumesTheCarry : Prop :=
  ∀ s : State, ∃ c : Bool, (∀ b, s.carry = .defined b → c = b)
    ∧ exec .getc s = .next { s with
        carry := .undef
        responses := s.responses ++ [some (if c then 1 else 0)]
        pv := s.pv || (s.cfg.debugPoison && !s.carry.isDefined)
        draws := s.draws + (!s.carry.isDefined).toNat }

/-- SETC: no result; the carry is 0 if `v` is zero and 1 otherwise, whatever it was (`40_carry_state.md`, D13). -/
def Obligations.SetcForcesTheCarry : Prop :=
  ∀ (s : State) (v : Nat),
    exec (.setc v) s = .next { s with carry := .defined (decide (v ≠ 0)), responses := s.responses ++ [none] }

/-- R120: the sum with the carry read is taken modulo `2^W` and its carry is not kept; opcode 0xA. -/
def Obligations.AddcAddsWithCarryIn : Prop :=
  ∀ (s : State) (x y : Nat), 1 ≤ s.cfg.W → x < 2 ^ s.cfg.W → y < 2 ^ s.cfg.W →
    decode s.cfg.W (packWord s.cfg.W 0xA x y) = .ok (.addc x y)
    ∧ ∃ c : Bool, (∀ b, s.carry = .defined b → c = b)
    ∧ exec (.addc x y) s = .next { s with
        carry := .undef
        responses := s.responses ++ [some ((x + y + c.toNat) % 2 ^ s.cfg.W)]
        pv := s.pv || (s.cfg.debugPoison && !s.carry.isDefined)
        draws := s.draws + (!s.carry.isDefined).toNat }

/-- R121: the sum is taken modulo `2^W` and carry 1 means that it did not fit; the carry before is not read; opcode 0x9. -/
def Obligations.AddsAddsAndSetsTheCarry : Prop :=
  ∀ (s : State) (x y : Nat), 1 ≤ s.cfg.W → x < 2 ^ s.cfg.W → y < 2 ^ s.cfg.W →
    decode s.cfg.W (packWord s.cfg.W 0x9 x y) = .ok (.adds x y)
    ∧ exec (.adds x y) s = .next { s with
      carry := .defined (decide (2 ^ s.cfg.W ≤ x + y))
      responses := s.responses ++ [some ((x + y) % 2 ^ s.cfg.W)] }

/-- R122: the sum with the carry read, and carry 1 when it did not fit; opcode 0xB. -/
def Obligations.AddcsAddsWithCarryInAndSetsTheCarry : Prop :=
  ∀ (s : State) (x y : Nat), 1 ≤ s.cfg.W → x < 2 ^ s.cfg.W → y < 2 ^ s.cfg.W →
    decode s.cfg.W (packWord s.cfg.W 0xB x y) = .ok (.addcs x y)
    ∧ ∃ c : Bool, (∀ b, s.carry = .defined b → c = b)
    ∧ exec (.addcs x y) s = .next { s with
        carry := .defined (decide (2 ^ s.cfg.W ≤ x + y + c.toNat))
        responses := s.responses ++ [some ((x + y + c.toNat) % 2 ^ s.cfg.W)]
        pv := s.pv || (s.cfg.debugPoison && !s.carry.isDefined)
        draws := s.draws + (!s.carry.isDefined).toNat }

/-- R123: the difference less the borrow read is reduced as `diff + 2^W when diff < 0`, its borrow is not kept;
opcode 0xE. -/
def Obligations.SubcSubtractsWithBorrowIn : Prop :=
  ∀ (s : State) (x y : Nat), 1 ≤ s.cfg.W → x < 2 ^ s.cfg.W → y < 2 ^ s.cfg.W →
    decode s.cfg.W (packWord s.cfg.W 0xE x y) = .ok (.subc x y)
    ∧ ∃ c : Bool, (∀ b, s.carry = .defined b → c = b)
    ∧ exec (.subc x y) s = .next { s with
        carry := .undef
        responses := s.responses ++
          [some (if x < y + c.toNat then x + 2 ^ s.cfg.W - (y + c.toNat) else x - (y + c.toNat))]
        pv := s.pv || (s.cfg.debugPoison && !s.carry.isDefined)
        draws := s.draws + (!s.carry.isDefined).toNat }

/-- R124: carry 1 means borrow; the carry before is not read; opcode 0xD. -/
def Obligations.SubsSubtractsAndSetsTheBorrow : Prop :=
  ∀ (s : State) (x y : Nat), 1 ≤ s.cfg.W → x < 2 ^ s.cfg.W → y < 2 ^ s.cfg.W →
    decode s.cfg.W (packWord s.cfg.W 0xD x y) = .ok (.subs x y)
    ∧ exec (.subs x y) s = .next { s with
      carry := .defined (decide (x < y))
      responses := s.responses ++ [some (if x < y then x + 2 ^ s.cfg.W - y else x - y)] }

/-- R125: the difference less the borrow read, and carry 1 means borrow; opcode 0xF. -/
def Obligations.SubcsSubtractsWithBorrowInAndSetsTheBorrow : Prop :=
  ∀ (s : State) (x y : Nat), 1 ≤ s.cfg.W → x < 2 ^ s.cfg.W → y < 2 ^ s.cfg.W →
    decode s.cfg.W (packWord s.cfg.W 0xF x y) = .ok (.subcs x y)
    ∧ ∃ c : Bool, (∀ b, s.carry = .defined b → c = b)
    ∧ exec (.subcs x y) s = .next { s with
        carry := .defined (decide (x < y + c.toNat))
        responses := s.responses ++
          [some (if x < y + c.toNat then x + 2 ^ s.cfg.W - (y + c.toNat) else x - (y + c.toNat))]
        pv := s.pv || (s.cfg.debugPoison && !s.carry.isDefined)
        draws := s.draws + (!s.carry.isDefined).toNat }

/-- Every command completes from every state with exactly one response, a word for GETC and the six word operations
and none for DECL and SETC, and keeps the parameters and what the host presents next (`60_exceptions.md` section 1, D17). -/
def Obligations.EveryCommandCompletesWithOneResponse : Prop :=
  ∀ (i : Instr) (s : State), ∃ t resp, exec i s = .next t ∧ t.responses = s.responses ++ [resp]
    ∧ t.cfg = s.cfg ∧ t.inputs = s.inputs ∧ t.drawStream = s.drawStream
    ∧ (resp = none ↔ i = .decl ∨ ∃ v, i = .setc v)

/-! ### Rules about the carry and PV, over all commands -/

/-- R25: which commands read the carry (a reader meeting an undefined carry draws once), which leave it defined and
which undefined, and that ADDS and SUBS give the same whatever the carry was. -/
def Obligations.ReadersAndWritersOfTheCarry : Prop :=
  (∀ (i : Instr) (s t : State), exec i s = .next t →
      t.draws = s.draws + (i.consuming && !s.carry.isDefined).toNat
        ∧ (t.carry.isDefined = true ↔ i.setting = true) ∧ (t.carry = .undef ↔ i.poisoning = true))
    ∧ (∀ i : Instr, i.consuming = true ↔ i = .getc ∨ ∃ x y, i = .addc x y ∨ i = .addcs x y ∨ i = .subc x y ∨ i = .subcs x y)
    ∧ (∀ i : Instr, i.setting = true ↔
        (∃ v, i = .setc v) ∨ ∃ x y, i = .adds x y ∨ i = .addcs x y ∨ i = .subs x y ∨ i = .subcs x y)
    ∧ (∀ i : Instr, i.poisoning = true ↔ i = .decl ∨ i = .getc ∨ ∃ x y, i = .addc x y ∨ i = .subc x y)
    ∧ (∀ s : State, s.resetEvent.carry = .undef)
    ∧ ∀ (x y : Nat) (s : State) (c : Carry), exec (.adds x y) { s with carry := c } = exec (.adds x y) s
      ∧ exec (.subs x y) { s with carry := c } = exec (.subs x y) s

/-- A consuming command that meets an undefined carry does what it does on one of the two defined carries, result and
carry-out together, and besides that only counts the draw and sets PV in a debug build
(`10_state.md` section 2, D10; `41_word_arithmetic.md` section 3). The bit is a free value (log entry 5). -/
def Obligations.UndefinedCarryReadsAsOneDrawnBit : Prop :=
  ∀ (i : Instr) (s : State), i.consuming = true → s.carry = .undef →
    ∃ (b : Bool) (t : State), exec i { s with carry := .defined b } = .next t
      ∧ exec i s = .next { t with pv := s.pv || s.cfg.debugPoison, draws := s.draws + 1 }

/-- PV is set exactly by a consuming command that meets an undefined carry in a debug build, and stays set; its value
changes nothing else, the two runs making one and the same draw (log entry 5); `dbg_pv` shows it (`10_state.md` section 2;
`60_exceptions.md` sections 1 and 3, D11). -/
def Obligations.PvIsStickyAndWithoutInfluence : Prop :=
  ∀ (i : Instr) (s : State), ∃ t, exec i s = .next t
    ∧ (t.pv = true ↔ s.pv = true ∨ (s.cfg.debugPoison = true ∧ i.consuming = true ∧ s.carry = .undef))
    ∧ (∀ p : Bool, ∃ q : Bool, exec i { s with pv := p } = .next { t with pv := q })
    ∧ (s.Inv → s.dbgPv = s.pv)

/-- `DEBUG_POISON` changes PV only: a step of an instance built the other way, with PV anything, gives the same carry,
the same responses and the same refusals (`00_scope.md` section 4, D11). On an undefined carry the two runs make one and
the same draw (log entry 5). -/
def Obligations.DebugPoisonChangesOnlyPv : Prop :=
  ∀ (s : State) (d p : Bool),
    (∀ t, step s = .next t → ∃ q : Bool,
      step { s with cfg := s.cfg.withDebugPoison d, pv := p }
        = .next { t with cfg := t.cfg.withDebugPoison d, pv := q })
    ∧ ∀ why, step s = .refused why →
      step { s with cfg := s.cfg.withDebugPoison d, pv := p } = .refused why

/-- The block remembers nothing but the carry and PV: what a command answers and leaves there does not depend on the
commands, operands and results before it (`10_state.md` sections 5 and 6). The draw counter is the model's own (log
entry 5), so the two states have it alike. -/
def Obligations.BlockRemembersOnlyCarryAndPv : Prop :=
  ∀ (i : Instr) (s s' : State), s.cfg.W = s'.cfg.W → s.cfg.debugPoison = s'.cfg.debugPoison → s.carry = s'.carry →
    s.pv = s'.pv → s.drawStream = s'.drawStream → s.draws = s'.draws →
    ∃ (t t' : State) (resp : Response), exec i s = .next t ∧ exec i s' = .next t'
      ∧ t.responses = s.responses ++ [resp] ∧ t'.responses = s'.responses ++ [resp]
      ∧ t.carry = t'.carry ∧ t.pv = t'.pv ∧ t.draws = t'.draws

/-- Reset and DECL leave the same carry and differ in PV alone: reset clears it, DECL keeps it; so with
`DEBUG_POISON = 0` they leave the same carry and PV (`70_reset_and_hazards.md` section 1). -/
def Obligations.ResetDiffersFromDeclInPvOnly : Prop :=
  ∀ s : State, ∃ t : State, exec .decl s = .next t ∧ t.carry = s.resetEvent.carry ∧ t.pv = s.pv
    ∧ s.resetEvent.pv = false
    ∧ (s.Inv → s.cfg.debugPoison = false → t.pv = s.resetEvent.pv)

/-! ### Arithmetic and datapaths -/

/-- The exact sum and difference are recovered from the carry-out and the result word of a setting command
(`41_word_arithmetic.md` section 3). -/
def Obligations.CarryOutAndResultRecoverTheExactValue : Prop :=
  ∀ (s : State) (x y : Nat) (c : Bool), x < 2 ^ s.cfg.W → y < 2 ^ s.cfg.W → s.carry = .defined c →
    (∃ (r : Nat) (b : Bool), r < 2 ^ s.cfg.W ∧ x + y + c.toNat = b.toNat * 2 ^ s.cfg.W + r
      ∧ exec (.addcs x y) s = .next { s with carry := .defined b, responses := s.responses ++ [some r] })
    ∧ (∃ (r : Nat) (b : Bool), r < 2 ^ s.cfg.W ∧ (x : Int) - y - c.toNat = r - b.toNat * 2 ^ s.cfg.W
      ∧ exec (.subcs x y) s = .next { s with carry := .defined b, responses := s.responses ++ [some r] })
    ∧ (∃ (r : Nat) (b : Bool), r < 2 ^ s.cfg.W ∧ x + y = b.toNat * 2 ^ s.cfg.W + r
      ∧ exec (.adds x y) s = .next { s with carry := .defined b, responses := s.responses ++ [some r] })
    ∧ ∃ (r : Nat) (b : Bool), r < 2 ^ s.cfg.W ∧ (x : Int) - y = r - b.toNat * 2 ^ s.cfg.W
      ∧ exec (.subs x y) s = .next { s with carry := .defined b, responses := s.responses ++ [some r] }

/-- The laws (a) to (e) of the addition and subtraction (`41_word_arithmetic.md` section 3). -/
def Obligations.AdditionAndSubtractionLaws : Prop :=
  ∀ (W : Nat) (x y : Nat) (c : Bool), 1 ≤ W → x < 2 ^ W → y < 2 ^ W →
    addWords W x y c = addWords W y x c
      ∧ (subWords W x y c = subWords W y x c → x = y)
      ∧ addWords W x 0 false = (x, false) ∧ subWords W x 0 false = (x, false) ∧ subWords W x x false = (0, false)
      ∧ (∀ s : State, s.cfg.W = W → s.carry = .defined false →
          exec (.addcs x y) s = exec (.adds x y) s ∧ exec (.subcs x y) s = exec (.subs x y) s)
      ∧ (subWords W x y c).1 = (addWords W x (complementWord W y) (!c)).1
      ∧ (subWords W x y c).2 = !(addWords W x (complementWord W y) (!c)).2
      ∧ (addWords W x y false).2 = decide ((addWords W x y false).1 < x)
      ∧ (subWords W x y false).2 = decide ((subWords W x y false).1 > x)
      ∧ (addWords W 0 (2 ^ W - 1) true).2 ≠ decide ((addWords W 0 (2 ^ W - 1) true).1 < 0)
      ∧ (subWords W 0 (2 ^ W - 1) true).2 ≠ decide ((subWords W 0 (2 ^ W - 1) true).1 > 0)

/-- The ripple adder gives the low `W` bits of the sum and the carry of weight `2^W`
(`41_word_arithmetic.md` section 3, gate-level form). -/
def Obligations.RippleAdderIsExact : Prop :=
  ∀ (W : Nat) (x y : Nat) (k : Bool), x < 2 ^ W → y < 2 ^ W →
    (rippleAdder W x y k).1 < 2 ^ W
      ∧ (rippleAdder W x y k).1 + (rippleAdder W x y k).2.toNat * 2 ^ W = x + y + k.toNat

/-- The portable datapath computes the architectural result word and carry, for every scratch width from `2W`
(`41_word_arithmetic.md` section 4). -/
def Obligations.PortableDatapathIsArchitectural : Prop :=
  ∀ (W SW : Nat) (x y : Nat) (c : Bool), 1 ≤ W → 2 * W ≤ SW → x < 2 ^ W → y < 2 ^ W →
    portableAdd W SW x y c = addWords W x y c ∧ portableSub W SW x y c = subWords W x y c

/-- The native datapath computes the architectural result word and carry (`41_word_arithmetic.md` section 4). -/
def Obligations.NativeDatapathIsArchitectural : Prop :=
  ∀ (W : Nat) (x y : Nat) (c : Bool), x < 2 ^ W → y < 2 ^ W →
    nativeAdd W x y c = addWords W x y c ∧ nativeSub W x y c = subWords W x y c

/-- Strategy equivalence: every command has the same outcome on the datapath the instance is built with as by its
architectural rule, whatever `STRATEGY` and `SW` are (`00_scope.md` section 4; `41_word_arithmetic.md` section 4). The
spec's equivalence (R136) covers the defined carry only; on an undefined one this also says that both sides agree when
they make one and the same draw, which is the model's (log entry 5). -/
def Obligations.EveryDatapathPerformsTheSameCommands : Prop :=
  ∀ (i : Instr) (s : State) (strategy : Config.Strategy) (SW : Nat), 1 ≤ s.cfg.W → 2 * s.cfg.W ≤ SW →
    i.wf s.cfg.W = true →
    ∃ t, exec i s = .next t
      ∧ execBuilt i { s with cfg := s.cfg.withDatapath strategy SW }
        = .next { t with cfg := s.cfg.withDatapath strategy SW }

/-! ### Sequences -/

/-- A run of the machine over the command words of a list performs the list, one command a step, in issue order
(`20_memory.md` section 2, D21). -/
def Obligations.RunPerformsTheListInOrder : Prop :=
  ∀ (s : State) (is : List Instr) (rest : List HostInput), 1 ≤ s.cfg.W → (∀ i ∈ is, i.wf s.cfg.W = true) →
    run is.length { s with inputs := is.map (fun i => HostInput.command (encode s.cfg.W i)) ++ rest }
      = execList is { s with inputs := rest }

/-- The N-word addition chain computes `X + Y` modulo `2^(N*W)`; its last carry, when kept, is 1 exactly when the sum
does not fit (`42_multiword_chain.md` section 1). -/
def Obligations.AdditionChainAddsMultiWordValues : Prop :=
  ∀ (s : State) (keep : Bool) (ps : List (Nat × Nat)), ps ≠ [] →
    (∀ p ∈ ps, p.1 < 2 ^ s.cfg.W ∧ p.2 < 2 ^ s.cfg.W) →
    ∃ rs : List Nat, rs.length = ps.length ∧ (∀ r ∈ rs, r < 2 ^ s.cfg.W)
      ∧ multiWord s.cfg.W rs
        = (multiWord s.cfg.W (ps.map Prod.fst) + multiWord s.cfg.W (ps.map Prod.snd)) % 2 ^ (ps.length * s.cfg.W)
      ∧ execList (addChain keep ps) s = .next { s with
          carry :=
            if keep = true ∨ ps.length = 1 then
              .defined (decide (2 ^ (ps.length * s.cfg.W)
                ≤ multiWord s.cfg.W (ps.map Prod.fst) + multiWord s.cfg.W (ps.map Prod.snd)))
            else .undef
          responses := s.responses ++ rs.map some }

/-- The N-word subtraction chain computes `X - Y` modulo `2^(N*W)`; its last carry, when kept, is 1 exactly when
`X < Y` (`42_multiword_chain.md` section 1). -/
def Obligations.SubtractionChainSubtractsMultiWordValues : Prop :=
  ∀ (s : State) (keep : Bool) (ps : List (Nat × Nat)), ps ≠ [] →
    (∀ p ∈ ps, p.1 < 2 ^ s.cfg.W ∧ p.2 < 2 ^ s.cfg.W) →
    ∃ rs : List Nat, rs.length = ps.length ∧ (∀ r ∈ rs, r < 2 ^ s.cfg.W)
      ∧ (multiWord s.cfg.W rs : Int)
        = ((multiWord s.cfg.W (ps.map Prod.fst) : Int) - multiWord s.cfg.W (ps.map Prod.snd))
          % (2 ^ (ps.length * s.cfg.W) : Nat)
      ∧ execList (subChain keep ps) s = .next { s with
          carry :=
            if keep = true ∨ ps.length = 1 then
              .defined (decide (multiWord s.cfg.W (ps.map Prod.fst) < multiWord s.cfg.W (ps.map Prod.snd)))
            else .undef
          responses := s.responses ++ rs.map some }

/-- A chain seeded with `SETC v` adds the seed bit in: `X + Y + cin`, or `X - Y - cin` (`42_multiword_chain.md`
section 2). -/
def Obligations.SeededChainsCarryTheSeed : Prop :=
  ∀ (s : State) (keep : Bool) (v : Nat) (ps : List (Nat × Nat)), ps ≠ [] →
    (∀ p ∈ ps, p.1 < 2 ^ s.cfg.W ∧ p.2 < 2 ^ s.cfg.W) →
    (∃ rs : List Nat, rs.length = ps.length
      ∧ multiWord s.cfg.W rs
        = (multiWord s.cfg.W (ps.map Prod.fst) + multiWord s.cfg.W (ps.map Prod.snd) + (decide (v ≠ 0)).toNat)
          % 2 ^ (ps.length * s.cfg.W)
      ∧ execList (.setc v :: addTail keep ps) s = .next { s with
          carry :=
            if keep then
              .defined (decide (2 ^ (ps.length * s.cfg.W) ≤ multiWord s.cfg.W (ps.map Prod.fst)
                + multiWord s.cfg.W (ps.map Prod.snd) + (decide (v ≠ 0)).toNat))
            else .undef
          responses := s.responses ++ none :: rs.map some })
    ∧ ∃ rs : List Nat, rs.length = ps.length
      ∧ (multiWord s.cfg.W rs : Int)
        = ((multiWord s.cfg.W (ps.map Prod.fst) : Int) - multiWord s.cfg.W (ps.map Prod.snd) - (decide (v ≠ 0)).toNat)
          % (2 ^ (ps.length * s.cfg.W) : Nat)
      ∧ execList (.setc v :: subTail keep ps) s = .next { s with
          carry :=
            if keep then
              .defined (decide (multiWord s.cfg.W (ps.map Prod.fst)
                < multiWord s.cfg.W (ps.map Prod.snd) + (decide (v ≠ 0)).toNat))
            else .undef
          responses := s.responses ++ none :: rs.map some }

/-- Subtraction as addition of the complement with carry 1: the words of `X - Y`, and a final carry that is the inverse
of the borrow (`42_multiword_chain.md` section 2). -/
def Obligations.ComplementChainSubtracts : Prop :=
  ∀ (s : State) (ps : List (Nat × Nat)), (∀ p ∈ ps, p.1 < 2 ^ s.cfg.W ∧ p.2 < 2 ^ s.cfg.W) →
    ∃ rs : List Nat, rs.length = ps.length
      ∧ (multiWord s.cfg.W rs : Int)
        = ((multiWord s.cfg.W (ps.map Prod.fst) : Int) - multiWord s.cfg.W (ps.map Prod.snd))
          % (2 ^ (ps.length * s.cfg.W) : Nat)
      ∧ execList (complementChain s.cfg.W ps) s = .next { s with
          carry := .defined (decide (multiWord s.cfg.W (ps.map Prod.snd) ≤ multiWord s.cfg.W (ps.map Prod.fst)))
          responses := s.responses ++ none :: rs.map some }

/-- Additions and subtractions may follow one another: the carry-out of one is the borrow-in of the other, and the
reverse (`42_multiword_chain.md` section 3). -/
def Obligations.OneCarryServesAddAndSubtract : Prop :=
  ∀ (s : State) (a b p q : Nat), a < 2 ^ s.cfg.W → b < 2 ^ s.cfg.W →
    execList [.adds a b, .subc p q] s = .next { s with
        carry := .undef
        responses := s.responses ++ [some ((a + b) % 2 ^ s.cfg.W),
          some (((p : Int) - q - (decide (2 ^ s.cfg.W ≤ a + b)).toNat) % (2 ^ s.cfg.W : Nat)).toNat] }
    ∧ execList [.subs a b, .addc p q] s = .next { s with
        carry := .undef
        responses := s.responses ++ [some (if a < b then a + 2 ^ s.cfg.W - b else a - b),
          some ((p + q + (decide (a < b)).toNat) % 2 ^ s.cfg.W)] }

/-- Saving and restoring: code that brackets a conforming list of its own with `t = GETC` and `SETC t` returns the
instance to the carry it had, with PV and everything but the record of responses as before
(`70_reset_and_hazards.md` section 2). -/
def Obligations.GetcSetcBracketRestoresTheCarry : Prop :=
  ∀ (s : State) (c : Bool) (own : List Instr), s.carry = .defined c → conforming false own = true →
    ∃ mid : List Response, mid.length = own.length
      ∧ execList (.getc :: (own ++ [.setc c.toNat])) s
        = .next { s with responses := s.responses ++ some c.toNat :: (mid ++ [none]) }

/-- ADDS, SUBS and SETC issued twice give the same response twice and the same final state; after GETC a second GETC
reads an undefined carry (`20_memory.md` section 1). -/
def Obligations.SettingWithoutReadingIsIdempotent : Prop :=
  (∀ (i : Instr) (s : State), i.setting = true → i.consuming = false →
      ∃ (t : State) (resp : Response), exec i s = .next t ∧ t.responses = s.responses ++ [resp]
        ∧ exec i t = .next { t with responses := t.responses ++ [resp] })
    ∧ ∀ s t : State, exec .getc s = .next t → ∃ u : State, exec .getc t = .next u ∧ u.draws = t.draws + 1

/-- A list of command words runs to its end without a single draw exactly when it is conforming
(`70_reset_and_hazards.md` section 2). -/
def Obligations.ConformingIsExactlyNoDraw : Prop :=
  ∀ (s : State) (cws : List Nat) (rest : List HostInput), s.inputs = cws.map HostInput.command ++ rest →
    (conformingWords s.cfg.W s.carry.isDefined cws = true ↔
      ∃ t : State, run cws.length s = .next t ∧ t.draws = s.draws)

/-- A conforming list gives the same responses and the same final carry whatever the draws, `STRATEGY`, `SW`,
`DEBUG_POISON`, PV and the history, and leaves PV as it was; the starting carry matters only where the first command
reads it (`70_reset_and_hazards.md` section 2). -/
def Obligations.ConformingListsAreDeterministic : Prop :=
  ∀ (is : List Instr) (s s' : State), s.cfg.W = s'.cfg.W → conforming s.carry.isDefined is = true →
    conforming s'.carry.isDefined is = true →
    (∀ i rest, is = i :: rest → i.consuming = true → s.carry = s'.carry) →
    ∃ (rs : List Response) (c c' : Carry), rs.length = is.length
      ∧ execList is s = .next { s with carry := c, responses := s.responses ++ rs }
      ∧ execList is s' = .next { s' with carry := c', responses := s'.responses ++ rs }
      ∧ (is ≠ [] → c = c')

/-- The instances of a platform do not influence one another: a step of one leaves the others as they are, and steps of
two different instances may be taken in either order, whatever streams of draws they have (`60_exceptions.md` section 3,
D25; log entry 17). -/
def Obligations.InstancesAreIndependent : Prop :=
  ∀ (n : Nat) (j k : Fin n) (p p' p'' : Vector State n), j ≠ k →
    platformStep j p = .next p' → platformStep k p = .next p'' →
    p'[k] = p[k] ∧ p''[j] = p[j] ∧ ∃ q, platformStep k p' = .next q ∧ platformStep j p'' = .next q

/-! ### The invariant -/

/-- Reset meets the invariant. -/
def Obligations.ResetMeetsTheInvariant : Prop :=
  State.reset.Inv

/-- Every step keeps the invariant: legal parameters, PV 0 unless the build is a debug build, response words of width
`W` and command words of width `4 + 2W` (`00_scope.md` section 4; `10_state.md` section 2; `30_encoding.md` section 1). -/
def Obligations.StepKeepsTheInvariant : Prop :=
  ∀ s t : State, s.Inv → step s = .next t → t.Inv
end

