-- ==== Sys2Proof/Laws/Arith.lean ====
section
/-! SUPPORT. The result words and carries of the word operations, in natural-number arithmetic, and their ranges. -/

namespace Sys2Proof.Machine

/-- A reduced word fits its width. -/
theorem modWord_lt (W : Nat) (a : Int) : modWord W a < 2 ^ W := by
  have hpos : (0 : Int) < (2 ^ W : Nat) := by exact_mod_cast Nat.two_pow_pos W
  have hlt := Int.emod_lt_of_pos a hpos
  exact (Int.toNat_lt_of_ne_zero (Nat.two_pow_pos W).ne').mpr hlt

/-- The result of GETC fits every legal width. -/
theorem carryWord_lt {W : Nat} (hW : 1 ≤ W) (c : Bool) : carryWord c < 2 ^ W := by
  have h2 : 2 ^ 1 ≤ 2 ^ W := Nat.pow_le_pow_right (by norm_num) hW
  exact lt_of_lt_of_le (Nat.lt_succ_of_le c.toNat_le) h2

/-- `modWord` of a natural number is its remainder. -/
theorem modWord_natCast (W n : Nat) : modWord W (n : Int) = n % 2 ^ W := by
  unfold modWord
  rw [← Int.natCast_mod, Int.toNat_natCast]

/-- The result word of an addition. -/
theorem addWords_fst (W : Nat) (x y : Nat) (c : Bool) : (addWords W x y c).1 = (x + y + c.toNat) % 2 ^ W := by
  rw [← modWord_natCast]
  simp [addWords, exactSum]

/-- The carry-out of an addition. -/
theorem addWords_snd (W : Nat) (x y : Nat) (c : Bool) :
    (addWords W x y c).2 = decide (2 ^ W ≤ x + y + c.toNat) := by
  refine decide_eq_decide.mpr ?_
  unfold exactSum
  generalize 2 ^ W = m
  omega

/-- The borrow-out of a subtraction. -/
theorem subWords_snd (W : Nat) (x y : Nat) (c : Bool) : (subWords W x y c).2 = decide (x < y + c.toNat) := by
  refine decide_eq_decide.mpr ?_
  unfold exactDiff
  omega

/-- `modWord` of an integer that differs from a word by a multiple of the modulus is that word. -/
theorem modWord_eq_of_eq {W n : Nat} {a : Int} (hn : n < 2 ^ W) (k : Int) (ha : a = n + k * (2 ^ W : Nat)) :
    modWord W a = n := by
  rw [ha, modWord, Int.add_mul_emod_self_right, Int.emod_eq_of_lt (Int.natCast_nonneg n) (by exact_mod_cast hn)]
  rfl

/-- The result word of a subtraction of two words: wrapped once when there is a borrow. -/
theorem subWords_fst {W : Nat} {x y : Nat} (c : Bool) (hx : x < 2 ^ W) (hy : y < 2 ^ W) :
    (subWords W x y c).1 = if x < y + c.toNat then x + 2 ^ W - (y + c.toNat) else x - (y + c.toNat) := by
  have hc := c.toNat_le
  split
  · refine modWord_eq_of_eq (by omega) (-1) ?_
    unfold exactDiff
    generalize 2 ^ W = m at *
    omega
  · refine modWord_eq_of_eq (by omega) 0 ?_
    unfold exactDiff
    omega

/-- A result word fits its width. -/
theorem addWords_fst_lt (W : Nat) (x y : Nat) (c : Bool) : (addWords W x y c).1 < 2 ^ W :=
  modWord_lt W (exactSum x y c)

/-- A result word fits its width. -/
theorem subWords_fst_lt (W : Nat) (x y : Nat) (c : Bool) : (subWords W x y c).1 < 2 ^ W :=
  modWord_lt W (exactDiff x y c)

end Sys2Proof.Machine
end

