-- ==== Sys2Proof/Laws/Decode.lean ====
section
/-! SUPPORT. The fields of a packed command word, and every number of `4 + 2W` bits as the packing of its fields. -/

namespace Sys2Proof

/-- The low two fields of a packed word have `2W` bits. -/
theorem lowFields_lt {W : Nat} {x y : Nat} (hx : x < 2 ^ W) (hy : y < 2 ^ W) : x * 2 ^ W + y < 2 ^ (2 * W) := by
  calc x * 2 ^ W + y < (x + 1) * 2 ^ W := by rw [Nat.add_mul, Nat.one_mul]; exact Nat.add_lt_add_left hy _
    _ ≤ 2 ^ W * 2 ^ W := Nat.mul_le_mul_right _ hx
    _ = 2 ^ (2 * W) := by rw [two_mul, pow_add]

/-- A packed word of in-range fields has `4 + 2W` bits. -/
theorem packWord_lt {W op : Nat} {x y : Nat} (hop : op < 16) (hx : x < 2 ^ W) (hy : y < 2 ^ W) :
    packWord W op x y < 2 ^ (4 + 2 * W) := by
  calc packWord W op x y = op * 2 ^ (2 * W) + (x * 2 ^ W + y) := Nat.add_assoc ..
    _ < (op + 1) * 2 ^ (2 * W) := by
      rw [Nat.add_mul, Nat.one_mul]
      exact Nat.add_lt_add_left (lowFields_lt hx hy) _
    _ ≤ 16 * 2 ^ (2 * W) := Nat.mul_le_mul_right _ hop
    _ = 2 ^ (4 + 2 * W) := by rw [pow_add]; norm_num

/-- The opcode field of a packed word. -/
theorem opField_packWord {W op : Nat} {x y : Nat} (hop : op < 16) (hx : x < 2 ^ W) (hy : y < 2 ^ W) :
    opField W (packWord W op x y) = op := by
  rw [opField, slice, packWord, Nat.add_assoc, Nat.add_comm, Nat.add_mul_div_right _ _ (Nat.two_pow_pos _),
    Nat.div_eq_of_lt (lowFields_lt hx hy), Nat.zero_add, show 2 * W + 3 - 2 * W + 1 = 4 by omega]
  exact Nat.mod_eq_of_lt hop

/-- The `x` field of a packed word. -/
theorem xField_packWord {W op : Nat} {x y : Nat} (hW : 1 ≤ W) (hx : x < 2 ^ W) (hy : y < 2 ^ W) :
    xField W (packWord W op x y) = x := by
  have hsplit : packWord W op x y = y + (x + op * 2 ^ W) * 2 ^ W := by
    rw [packWord, two_mul, pow_add]
    ring
  rw [xField, slice, hsplit, Nat.add_mul_div_right _ _ (Nat.two_pow_pos _), Nat.div_eq_of_lt hy, Nat.zero_add,
    show 2 * W - 1 - W + 1 = W by omega, Nat.add_mul_mod_self_right, Nat.mod_eq_of_lt hx]

/-- The `y` field of a packed word. -/
theorem yField_packWord {W op : Nat} {x y : Nat} (hW : 1 ≤ W) (hy : y < 2 ^ W) :
    yField W (packWord W op x y) = y := by
  have hsplit : packWord W op x y = y + (x + op * 2 ^ W) * 2 ^ W := by
    rw [packWord, two_mul, pow_add]
    ring
  rw [yField, slice, hsplit, pow_zero, Nat.div_one, show W - 1 - 0 + 1 = W by omega, Nat.add_mul_mod_self_right,
    Nat.mod_eq_of_lt hy]

/-- The `x` field fits its port. -/
theorem xField_lt {W : Nat} (hW : 1 ≤ W) (cw : Nat) : xField W cw < 2 ^ W := by
  rw [xField, slice, show 2 * W - 1 - W + 1 = W by omega]
  exact Nat.mod_lt _ (Nat.two_pow_pos W)

/-- The `y` field fits its port. -/
theorem yField_lt {W : Nat} (hW : 1 ≤ W) (cw : Nat) : yField W cw < 2 ^ W := by
  rw [yField, slice, show W - 1 - 0 + 1 = W by omega]
  exact Nat.mod_lt _ (Nat.two_pow_pos W)

/-- The opcode field has four bits. -/
theorem opField_lt (W : Nat) (cw : Nat) : opField W cw < 16 := by
  rw [opField, slice, show 2 * W + 3 - 2 * W + 1 = 4 by omega]
  exact Nat.mod_lt _ (by norm_num)

/-- Every number of `4 + 2W` bits is the packing of its fields. -/
theorem packWord_fields {W : Nat} (hW : 1 ≤ W) {cw : Nat} (h : cw < 2 ^ (4 + 2 * W)) :
    packWord W (opField W cw) (xField W cw) (yField W cw) = cw := by
  have hop : opField W cw = cw / (2 ^ W * 2 ^ W) := by
    rw [opField, slice, show 2 * W + 3 - 2 * W + 1 = 4 by omega, two_mul, pow_add]
    refine Nat.mod_eq_of_lt (Nat.div_lt_of_lt_mul ?_)
    calc cw < 2 ^ (4 + 2 * W) := h
      _ = 2 ^ W * 2 ^ W * 2 ^ 4 := by ring
  have hx : xField W cw = cw / 2 ^ W % 2 ^ W := by rw [xField, slice, show 2 * W - 1 - W + 1 = W by omega]
  have hy : yField W cw = cw % 2 ^ W := by
    rw [yField, slice, pow_zero, Nat.div_one, show W - 1 - 0 + 1 = W by omega]
  have hhigh := Nat.div_add_mod (cw / 2 ^ W) (2 ^ W)
  have hall := Nat.div_add_mod cw (2 ^ W)
  rw [Nat.div_div_eq_div_mul, ← hop, ← hx] at hhigh
  rw [← hy, ← hhigh] at hall
  rw [packWord, two_mul, pow_add]
  refine Eq.trans ?_ hall
  ring

/-- A packed word decodes by its fields. -/
theorem decode_packWord {W op : Nat} {x y : Nat} (hW : 1 ≤ W) (hop : op < 16) (hx : x < 2 ^ W) (hy : y < 2 ^ W) :
    decode W (packWord W op x y) = decodeFields op x y := by
  rw [decode, if_pos (packWord_lt hop hx hy), opField_packWord hop hx hy, xField_packWord hW hx hy,
    yField_packWord hW hy]

/-- An operand check of `Instr.wf` as an inequality. -/
theorem wordFits_iff {W : Nat} {v : Nat} : wordFits W v = true ↔ v < 2 ^ W := by
  simp [wordFits]

end Sys2Proof
end

