-- ==== Sys2Proof/Laws/State.lean ====
section
/-! SUPPORT. One lemma per field and update of the state: what each named operation does to each field. -/

namespace Sys2Proof.Machine.State

variable (s : State) (b : Bool) (resp : Response)

@[simp] theorem setCarry_cfg : (s.setCarry b).cfg = s.cfg := rfl
@[simp] theorem setCarry_carry : (s.setCarry b).carry = .defined b := rfl
@[simp] theorem setCarry_pv : (s.setCarry b).pv = s.pv := rfl
@[simp] theorem setCarry_inputs : (s.setCarry b).inputs = s.inputs := rfl
@[simp] theorem setCarry_responses : (s.setCarry b).responses = s.responses := rfl
@[simp] theorem setCarry_drawStream : (s.setCarry b).drawStream = s.drawStream := rfl
@[simp] theorem setCarry_draws : (s.setCarry b).draws = s.draws := rfl

@[simp] theorem poisonCarry_cfg : s.poisonCarry.cfg = s.cfg := rfl
@[simp] theorem poisonCarry_carry : s.poisonCarry.carry = .undef := rfl
@[simp] theorem poisonCarry_pv : s.poisonCarry.pv = s.pv := rfl
@[simp] theorem poisonCarry_inputs : s.poisonCarry.inputs = s.inputs := rfl
@[simp] theorem poisonCarry_responses : s.poisonCarry.responses = s.responses := rfl
@[simp] theorem poisonCarry_drawStream : s.poisonCarry.drawStream = s.drawStream := rfl
@[simp] theorem poisonCarry_draws : s.poisonCarry.draws = s.draws := rfl

@[simp] theorem respond_cfg : (s.respond resp).cfg = s.cfg := rfl
@[simp] theorem respond_carry : (s.respond resp).carry = s.carry := rfl
@[simp] theorem respond_pv : (s.respond resp).pv = s.pv := rfl
@[simp] theorem respond_inputs : (s.respond resp).inputs = s.inputs := rfl
@[simp] theorem respond_responses : (s.respond resp).responses = s.responses ++ [resp] := rfl
@[simp] theorem respond_drawStream : (s.respond resp).drawStream = s.drawStream := rfl
@[simp] theorem respond_draws : (s.respond resp).draws = s.draws := rfl

@[simp] theorem resetEvent_cfg : s.resetEvent.cfg = s.cfg := rfl
@[simp] theorem resetEvent_carry : s.resetEvent.carry = .undef := rfl
@[simp] theorem resetEvent_pv : s.resetEvent.pv = false := rfl
@[simp] theorem resetEvent_inputs : s.resetEvent.inputs = s.inputs := rfl
@[simp] theorem resetEvent_responses : s.resetEvent.responses = s.responses := rfl
@[simp] theorem resetEvent_drawStream : s.resetEvent.drawStream = s.drawStream := rfl
@[simp] theorem resetEvent_draws : s.resetEvent.draws = s.draws := rfl

@[simp] theorem isDefined_undef : Carry.undef.isDefined = false := rfl
@[simp] theorem isDefined_defined : (Carry.defined b).isDefined = true := rfl

end Sys2Proof.Machine.State

namespace Sys2Proof.Config.Params

variable (p : Params) (d : Bool) (strategy : Strategy) (SW : Nat)

@[simp] theorem withDebugPoison_W : (p.withDebugPoison d).W = p.W := rfl
@[simp] theorem withDebugPoison_SW : (p.withDebugPoison d).SW = p.SW := rfl
@[simp] theorem withDebugPoison_strategy : (p.withDebugPoison d).strategy = p.strategy := rfl
@[simp] theorem withDebugPoison_debugPoison : (p.withDebugPoison d).debugPoison = d := rfl
@[simp] theorem withDatapath_W : (p.withDatapath strategy SW).W = p.W := rfl
@[simp] theorem withDatapath_SW : (p.withDatapath strategy SW).SW = SW := rfl
@[simp] theorem withDatapath_strategy : (p.withDatapath strategy SW).strategy = strategy := rfl
@[simp] theorem withDatapath_debugPoison : (p.withDatapath strategy SW).debugPoison = p.debugPoison := rfl

end Sys2Proof.Config.Params
end

