-- ==== Sys2Proof/Laws/Ops.lean ====
section
/-! SUPPORT. One lemma per shared operation that says everything it can do, and the inversion lemmas of `exec` and
`step`; a later proof cites these and unfolds nothing. -/

namespace Sys2Proof.Machine

/-- Reading a defined carry gives its bit and changes nothing. -/
theorem readCarry_of_defined {s : State} {b : Bool} (h : s.carry = .defined b) : s.readCarry = (b, s) := by
  simp [State.readCarry, State.readCarryWith, h]

/-- Reading an undefined carry gives the draw, counts it, and sets PV in a debug build. -/
theorem readCarry_of_undef {s : State} (h : s.carry = .undef) :
    s.readCarry = (Config.anyBit s.drawStream s.draws,
      { s with pv := if s.cfg.debugPoison then true else s.pv, draws := s.draws + 1 }) := by
  simp [State.readCarry, State.readCarryWith, h]

/-- The bit of a carry read: the defined bit, or some bit. -/
theorem readCarry_bit (s : State) : ∀ b, s.carry = .defined b → s.readCarry.1 = b := by
  intro b h
  rw [readCarry_of_defined h]

/-- The state after a carry read, in both cases at once. -/
theorem readCarry_state (s : State) :
    s.readCarry.2 = { s with
      pv := s.pv || (s.cfg.debugPoison && !s.carry.isDefined)
      draws := s.draws + (!s.carry.isDefined).toNat } := by
  cases h : s.carry with
  | undef =>
    rw [readCarry_of_undef h]
    cases s.cfg.debugPoison <;> simp [h]
  | defined b => rw [readCarry_of_defined h]; cases s; simp_all

@[simp] theorem readCarry_cfg (s : State) : s.readCarry.2.cfg = s.cfg := by rw [readCarry_state]
@[simp] theorem readCarry_inputs (s : State) : s.readCarry.2.inputs = s.inputs := by rw [readCarry_state]
@[simp] theorem readCarry_responses (s : State) : s.readCarry.2.responses = s.responses := by rw [readCarry_state]
@[simp] theorem readCarry_drawStream (s : State) : s.readCarry.2.drawStream = s.drawStream := by rw [readCarry_state]

/-- Everything a setting, non-consuming word operation does. -/
theorem opSetting_eq (p : Nat × Bool) (s : State) :
    s.opSetting p = { s with carry := .defined p.2, responses := s.responses ++ [some p.1] } := rfl

/-- Everything a consuming, non-setting word operation does. -/
theorem opConsuming_eq (f : Bool → Nat × Bool) (s : State) :
    s.opConsuming f = { s with
      carry := .undef
      responses := s.responses ++ [some (f s.readCarry.1).1]
      pv := s.pv || (s.cfg.debugPoison && !s.carry.isDefined)
      draws := s.draws + (!s.carry.isDefined).toNat } := by
  simp only [State.opConsuming, readCarry_state s]
  rfl

/-- Everything a consuming and setting word operation does. -/
theorem opConsumingSetting_eq (f : Bool → Nat × Bool) (s : State) :
    s.opConsumingSetting f = { s with
      carry := .defined (f s.readCarry.1).2
      responses := s.responses ++ [some (f s.readCarry.1).1]
      pv := s.pv || (s.cfg.debugPoison && !s.carry.isDefined)
      draws := s.draws + (!s.carry.isDefined).toNat } := by
  simp only [State.opConsumingSetting, readCarry_state s]
  rfl

/-- Everything a command can do: it takes a next state that differs in the carry, PV, the responses (one more, and its
word fits the port) and the draw counter only. -/
theorem exec_inversion {i : Instr} {s t : State} (h : exec i s = .next t) :
    ∃ carry resp, t = { s with
      carry := carry
      responses := s.responses ++ [resp]
      pv := s.pv || (s.cfg.debugPoison && (i.consuming && !s.carry.isDefined))
      draws := s.draws + (i.consuming && !s.carry.isDefined).toNat }
        ∧ carry.isDefined = i.setting ∧ (1 ≤ s.cfg.W → ∀ r, resp = some r → r < 2 ^ s.cfg.W) := by
  have quietPv : ∀ b : Bool, (s.pv || (s.cfg.debugPoison && (false && b))) = s.pv := by simp
  have quietDraws : ∀ b : Bool, s.draws + (false && b).toNat = s.draws := by simp
  cases i with
  | decl => cases h; exact ⟨.undef, none, by rw [Instr.consuming, quietPv, quietDraws]; rfl, rfl, by simp⟩
  | getc =>
    cases h
    refine ⟨.undef, some (carryWord s.readCarry.1), by simp only [readCarry_state]; rfl, rfl, ?_⟩
    rintro hW r ⟨⟩
    exact carryWord_lt hW _
  | setc v => cases h; exact ⟨.defined (setcBit v), none, by rw [Instr.consuming, quietPv, quietDraws]; rfl, rfl, by simp⟩
  | adds x y =>
    cases h
    refine ⟨.defined _, some _, by rw [Instr.consuming, quietPv, quietDraws]; exact opSetting_eq _ _, rfl, ?_⟩
    rintro - r ⟨⟩
    exact addWords_fst_lt ..
  | subs x y =>
    cases h
    refine ⟨.defined _, some _, by rw [Instr.consuming, quietPv, quietDraws]; exact opSetting_eq _ _, rfl, ?_⟩
    rintro - r ⟨⟩
    exact subWords_fst_lt ..
  | addc x y =>
    cases h
    refine ⟨.undef, some _, opConsuming_eq _ _, rfl, ?_⟩
    rintro - r ⟨⟩
    exact addWords_fst_lt ..
  | subc x y =>
    cases h
    refine ⟨.undef, some _, opConsuming_eq _ _, rfl, ?_⟩
    rintro - r ⟨⟩
    exact subWords_fst_lt ..
  | addcs x y =>
    cases h
    refine ⟨.defined _, some _, opConsumingSetting_eq _ _, rfl, ?_⟩
    rintro - r ⟨⟩
    exact addWords_fst_lt ..
  | subcs x y =>
    cases h
    refine ⟨.defined _, some _, opConsumingSetting_eq _ _, rfl, ?_⟩
    rintro - r ⟨⟩
    exact subWords_fst_lt ..

/-- The host presented nothing more. -/
theorem step_of_noInput {s : State} (h : s.inputs = []) : step s = .next s := by
  simp [step, State.accept, h]

/-- The host asserted `rst`. -/
theorem step_of_rst {s : State} {input : HostInput} {rest : List HostInput} (h : s.inputs = input :: rest)
    (hr : input.rst = true) : step s = .next { s with inputs := rest }.resetEvent := by
  simp [step, State.accept, h, hr]

/-- The host presented no command. -/
theorem step_of_noCommand {s : State} {input : HostInput} {rest : List HostInput} (h : s.inputs = input :: rest)
    (hr : input.rst = false) (hc : input.cmd = none) : step s = .next { s with inputs := rest } := by
  simp [step, State.accept, h, hr, hc]

/-- The host presented a command. -/
theorem step_of_command {s : State} {input : HostInput} {rest : List HostInput} {cw : Nat}
    (h : s.inputs = input :: rest) (hr : input.rst = false) (hc : input.cmd = some cw) :
    step s = match decode s.cfg.W cw with
      | .ok i => exec i { s with inputs := rest }
      | .error e => .refused (refusalOf e) := by
  cases hd : decode s.cfg.W cw <;> simp [step, State.accept, h, hr, hc, hd]

/-- Everything a step that answers a next state can have done. -/
theorem step_inversion {s t : State} (h : step s = .next t) :
    (s.inputs = [] ∧ t = s)
      ∨ ∃ input rest, s.inputs = input :: rest ∧
        ((input.rst = true ∧ t = { s with inputs := rest }.resetEvent)
          ∨ (input.rst = false ∧ input.cmd = none ∧ t = { s with inputs := rest })
          ∨ ∃ cw i, input.rst = false ∧ input.cmd = some cw ∧ decode s.cfg.W cw = .ok i
            ∧ exec i { s with inputs := rest } = .next t) := by
  cases hin : s.inputs with
  | nil => left; rw [step_of_noInput hin] at h; cases h; exact ⟨rfl, rfl⟩
  | cons input rest =>
    refine .inr ⟨input, rest, rfl, ?_⟩
    cases hr : input.rst with
    | true => left; rw [step_of_rst hin hr] at h; cases h; exact ⟨rfl, rfl⟩
    | false =>
      right
      cases hc : input.cmd with
      | none => left; rw [step_of_noCommand hin hr hc] at h; cases h; exact ⟨rfl, rfl, rfl⟩
      | some cw =>
        right
        rw [step_of_command hin hr hc] at h
        cases hd : decode s.cfg.W cw with
        | error e => rw [hd] at h; cases h
        | ok i => rw [hd] at h; exact ⟨cw, i, rfl, rfl, hd, h⟩

end Sys2Proof.Machine
end

