-- ==== Sys2Proof/Laws/PerInstr.lean ====
section
/-! SUPPORT. Statements made per command: its canonical word fits the port, its opcode is a legal one, and the bits of the
opcode say what the command does with the carry. -/

namespace Sys2Proof.Laws.EncodeFits

/-- The canonical word of a well-formed command has `4 + 2W` bits (R63). -/
def Statement (i : Instr) : Prop :=
  ∀ W, i.wf W = true → encode W i < 2 ^ (4 + 2 * W)

theorem decl : Statement .decl := fun W _ => packWord_lt (by decide) (Nat.two_pow_pos W) (Nat.two_pow_pos W)

theorem getc : Statement .getc := fun W _ => packWord_lt (by decide) (Nat.two_pow_pos W) (Nat.two_pow_pos W)

theorem setc (v : Nat) : Statement (.setc v) := fun W h =>
  packWord_lt (by norm_num [Instr.opcode]) (wordFits_iff.mp h) (Nat.two_pow_pos W)

/-- The range of both operands from the check of a word operation. -/
theorem operands_lt {W x y : Nat} (h : (wordFits W x && wordFits W y) = true) : x < 2 ^ W ∧ y < 2 ^ W := by
  rwa [Bool.and_eq_true, wordFits_iff, wordFits_iff] at h

theorem adds (x y : Nat) : Statement (.adds x y) := fun _ h =>
  packWord_lt (by norm_num [Instr.opcode]) (operands_lt h).1 (operands_lt h).2

theorem addc (x y : Nat) : Statement (.addc x y) := fun _ h =>
  packWord_lt (by norm_num [Instr.opcode]) (operands_lt h).1 (operands_lt h).2

theorem addcs (x y : Nat) : Statement (.addcs x y) := fun _ h =>
  packWord_lt (by norm_num [Instr.opcode]) (operands_lt h).1 (operands_lt h).2

theorem subs (x y : Nat) : Statement (.subs x y) := fun _ h =>
  packWord_lt (by norm_num [Instr.opcode]) (operands_lt h).1 (operands_lt h).2

theorem subc (x y : Nat) : Statement (.subc x y) := fun _ h =>
  packWord_lt (by norm_num [Instr.opcode]) (operands_lt h).1 (operands_lt h).2

theorem subcs (x y : Nat) : Statement (.subcs x y) := fun _ h =>
  packWord_lt (by norm_num [Instr.opcode]) (operands_lt h).1 (operands_lt h).2

end Sys2Proof.Laws.EncodeFits

namespace Sys2Proof.Laws.OpcodeBits

/-- The opcode is a legal one of four bits, and when its bit `A` is set, its bits `C` and `S` say whether the command
consumes and sets the carry (R65, R70). -/
def Statement (i : Instr) : Prop :=
  i.opcode < 16 ∧ reservedOpcode i.opcode = false
    ∧ (i.opcode.testBit 3 = true → i.opcode.testBit 1 = i.consuming ∧ i.opcode.testBit 0 = i.setting)

theorem decl : Statement .decl :=
  ⟨by norm_num [Instr.opcode], rfl, fun h => absurd h (by decide)⟩

theorem getc : Statement .getc :=
  ⟨by norm_num [Instr.opcode], rfl, fun h => absurd h (by decide)⟩

theorem setc (v : Nat) : Statement (.setc v) :=
  ⟨by norm_num [Instr.opcode], rfl, fun h => absurd h (by decide : ¬Nat.testBit 0x2 3 = true)⟩

theorem adds (x y : Nat) : Statement (.adds x y) :=
  ⟨by norm_num [Instr.opcode], rfl, fun _ =>
    ⟨(by decide : Nat.testBit 0x9 1 = false), (by decide : Nat.testBit 0x9 0 = true)⟩⟩

theorem addc (x y : Nat) : Statement (.addc x y) :=
  ⟨by norm_num [Instr.opcode], rfl, fun _ =>
    ⟨(by decide : Nat.testBit 0xA 1 = true), (by decide : Nat.testBit 0xA 0 = false)⟩⟩

theorem addcs (x y : Nat) : Statement (.addcs x y) :=
  ⟨by norm_num [Instr.opcode], rfl, fun _ =>
    ⟨(by decide : Nat.testBit 0xB 1 = true), (by decide : Nat.testBit 0xB 0 = true)⟩⟩

theorem subs (x y : Nat) : Statement (.subs x y) :=
  ⟨by norm_num [Instr.opcode], rfl, fun _ =>
    ⟨(by decide : Nat.testBit 0xD 1 = false), (by decide : Nat.testBit 0xD 0 = true)⟩⟩

theorem subc (x y : Nat) : Statement (.subc x y) :=
  ⟨by norm_num [Instr.opcode], rfl, fun _ =>
    ⟨(by decide : Nat.testBit 0xE 1 = true), (by decide : Nat.testBit 0xE 0 = false)⟩⟩

theorem subcs (x y : Nat) : Statement (.subcs x y) :=
  ⟨by norm_num [Instr.opcode], rfl, fun _ =>
    ⟨(by decide : Nat.testBit 0xF 1 = true), (by decide : Nat.testBit 0xF 0 = true)⟩⟩

end Sys2Proof.Laws.OpcodeBits
end

