-- ==== Sys2Proof/Laws/Run.lean ====
section
/-! SUPPORT. Runs and command lists: one lemma per way a list goes on, and that `run` is the host's own run of `core`. -/

namespace Sys2Proof.Machine

/-- `run` is what the host runs. -/
theorem run_eq_core_run (k : Nat) (s : State) : run k s = Host.Core.run core k s := by
  induction k generalizing s with
  | zero => rfl
  | succ k ih =>
    cases h : step s with
    | next t =>
      have hcore : core.step s = .next t := h
      simp only [run, Host.Core.run, h, hcore]
      exact ih t
    | fault f => exact nomatch f
    | refused r =>
      have hcore : core.step s = .refused r := h
      simp only [run, Host.Core.run, h, hcore]
      rfl

/-- A command is never refused by its own rule. -/
theorem exec_ne_refused (i : Instr) (s : State) (why : Refusal) : exec i s ≠ .refused why := by
  cases i <;> exact fun h => nomatch h

/-- The list goes on from the state its first command leaves. -/
theorem execList_cons {i : Instr} {is : List Instr} {s t : State} (h : exec i s = .next t) :
    execList (i :: is) s = execList is t := by
  simp only [execList, h]

/-- The second of two lists goes on from the state the first leaves. -/
theorem execList_append {is js : List Instr} {s t : State} (h : execList is s = .next t) :
    execList (is ++ js) s = execList js t := by
  induction is generalizing s with
  | nil => cases h; rfl
  | cons i is ih =>
    cases hi : exec i s with
    | next u => rw [execList_cons hi] at h; rw [List.cons_append, execList_cons hi]; exact ih h
    | fault f => exact nomatch f
    | refused r => exact absurd hi (exec_ne_refused i s r)

/-- What a carry read gives does not depend on what the host presents next. -/
theorem readCarry_withInputs (s : State) (inputs : List HostInput) :
    ({ s with inputs := inputs } : State).readCarry.1 = s.readCarry.1 := by
  cases h : s.carry <;> simp [State.readCarry, State.readCarryWith, h]

/-- What a command does does not depend on what the host presents next. -/
theorem exec_withInputs {i : Instr} {s t : State} (inputs : List HostInput) (h : exec i s = .next t) :
    exec i { s with inputs := inputs } = .next { t with inputs := inputs } := by
  cases i <;> cases h <;> first
    | rfl
    | (simp only [exec, execGetc, execAddc, execAddcs, execSubc, execSubcs, opConsuming_eq, opConsumingSetting_eq,
        readCarry_state, readCarry_withInputs]; done)
    | (simp only [exec, execGetc, readCarry_state, readCarry_withInputs]; rfl)

/-- A word that decodes is `4 + 2W` bits wide, and its fields say what it decodes to. -/
theorem decode_eq_ok {W cw : Nat} {i : Instr} (h : decode W cw = .ok i) :
    cw < 2 ^ (4 + 2 * W) ∧ decodeFields (opField W cw) (xField W cw) (yField W cw) = .ok i := by
  unfold decode at h
  split at h
  · exact ⟨‹_›, h⟩
  · cases h

end Sys2Proof.Machine
end

