-- ==== Sys2Proof/Tests/Slice0.lean ====
section
/-! SUPPORT. Small tests against the words and results written out in the spec, and a witness for the hypotheses of every
statement that has some. Expected values are from `95_test_vectors.md` and the examples of the rules. -/

namespace Sys2Proof.Tests

open Sys2Proof.Machine

/-- The reset state with a given carry. -/
def withCarry (c : Carry) : State :=
  { State.reset with carry := c }

/-- A debug build after reset (R10). -/
def debugBuild : State :=
  { State.reset with cfg := Config.defaults.withDebugPoison true }

/-- The reset state with the host presenting the command word `cw`. -/
def presenting (cw : Nat) : State :=
  { State.reset with inputs := [HostInput.command cw] }

/-! ### WellFormed: one ill-formed term for each check -/

theorem test_wf_refuses_wide_v : (Instr.setc (2 ^ 32)).wf 32 = false := by decide
theorem test_wf_refuses_wide_adds_x : (Instr.adds (2 ^ 32) 0).wf 32 = false := by decide
theorem test_wf_refuses_wide_adds_y : (Instr.adds 0 (2 ^ 32)).wf 32 = false := by decide
theorem test_wf_refuses_wide_addc_x : (Instr.addc 16 0).wf 4 = false := by decide
theorem test_wf_refuses_wide_addc_y : (Instr.addc 0 16).wf 4 = false := by decide
theorem test_wf_refuses_wide_addcs_x : (Instr.addcs 16 0).wf 4 = false := by decide
theorem test_wf_refuses_wide_addcs_y : (Instr.addcs 0 16).wf 4 = false := by decide
theorem test_wf_refuses_wide_subs_x : (Instr.subs 2 0).wf 1 = false := by decide
theorem test_wf_refuses_wide_subs_y : (Instr.subs 0 2).wf 1 = false := by decide
theorem test_wf_refuses_wide_subc_x : (Instr.subc 4 0).wf 2 = false := by decide
theorem test_wf_refuses_wide_subc_y : (Instr.subc 0 4).wf 2 = false := by decide
theorem test_wf_refuses_wide_subcs_x : (Instr.subcs 4 0).wf 2 = false := by decide
theorem test_wf_refuses_wide_subcs_y : (Instr.subcs 0 4).wf 2 = false := by decide
theorem test_params_refuse_zero_width : ({ Config.defaults with W := 0 } : Config.Params).wf = false := by decide
theorem test_params_refuse_narrow_scratch : ({ Config.defaults with SW := 63 } : Config.Params).wf = false := by decide

/-! ### Decode: every constructor's word, written out from R65 (field `op` in the top digit, then `x`, then `y`) -/

theorem test_decode_decl : decode 32 0x0DEADBEEF12345678 = .ok .decl := by decide
theorem test_decode_getc : decode 32 0x1FFFFFFFFFFFFFFFF = .ok .getc := by decide
theorem test_decode_setc : decode 32 0x200000000FFFFFFFF = .ok (.setc 0) := by decide
theorem test_decode_adds : decode 32 0x90000FFFFFFFF0001 = .ok (.adds 0x0000FFFF 0xFFFF0001) := by decide
theorem test_decode_addc : decode 32 0xA0000000700000008 = .ok (.addc 7 8) := by decide
theorem test_decode_addcs : decode 32 0xB00000005FFFFFFF5 = .ok (.addcs 5 0xFFFFFFF5) := by decide
theorem test_decode_subs : decode 32 0xD0000000A00000005 = .ok (.subs 10 5) := by decide
theorem test_decode_subc : decode 32 0xE000000050000000A = .ok (.subc 5 10) := by decide
theorem test_decode_subcs : decode 32 0xF0000000500000005 = .ok (.subcs 5 5) := by decide
theorem test_decode_reserved : decode 32 0xC0000000100000002 = .error (.reserved 0xC) := by decide
theorem test_decode_too_wide : decode 32 0x900000000000000000 = .error .tooWide := by decide
theorem test_decode_table_word : decodeTableWord 72 0x9FFFFFFFF00000001 = some (.adds 0xFFFFFFFF 1) := by decide
/-- Bit by bit: `1001`, then `1100`, then `0111` is `ADDS 0xC, 0x7` at `W = 4` (program P5). -/
theorem test_decode_bits : decode 4 0b100111000111 = .ok (.adds 0b1100 0b0111) := by decide
theorem test_encode_setc : encode 32 (.setc 1) = 0x20000000100000000 := by decide
theorem test_canonical_refuses_ignored_y : canonicalWord 32 0x200000000FFFFFFFF = false := by decide
theorem test_canonical_accepts_setc : canonicalWord 32 0x2FFFFFFFF00000000 = true := by decide

/-! ### The commands, one step each -/

theorem test_decl_discards : exec .decl (withCarry (.defined true))
    = .next { withCarry .undef with responses := [none] } := rfl
theorem test_getc_returns_one : exec .getc (withCarry (.defined true))
    = .next { withCarry .undef with responses := [some 1] } := rfl
theorem test_setc_two_sets_one : exec (.setc 2) (withCarry (.defined false))
    = .next { withCarry (.defined true) with responses := [none] } := rfl
theorem test_setc_zero_sets_zero : exec (.setc 0) (withCarry (.defined true))
    = .next { withCarry (.defined false) with responses := [none] } := rfl
theorem test_adds_wraps : exec (.adds 0xFFFFFFFF 1) State.reset
    = .next { withCarry (.defined true) with responses := [some 0] } := rfl
theorem test_adds_signed_overflow_unnoticed : exec (.adds 0x7FFFFFFF 1) State.reset
    = .next { withCarry (.defined false) with responses := [some 0x80000000] } := rfl
theorem test_addc_with_carry : exec (.addc 0x0000FFFF 0xFFFF0001) (withCarry (.defined true))
    = .next { withCarry .undef with responses := [some 1] } := rfl
theorem test_addcs_largest_sum : exec (.addcs 0xFFFFFFFF 0xFFFFFFFF) (withCarry (.defined true))
    = .next { withCarry (.defined true) with responses := [some 0xFFFFFFFF] } := rfl
theorem test_subs_borrows : exec (.subs 5 10) State.reset
    = .next { withCarry (.defined true) with responses := [some 0xFFFFFFFB] } := rfl
theorem test_subs_no_borrow : exec (.subs 10 5) State.reset
    = .next { withCarry (.defined false) with responses := [some 5] } := rfl
theorem test_subc_with_borrow : exec (.subc 5 10) (withCarry (.defined true))
    = .next { withCarry .undef with responses := [some 0xFFFFFFFA] } := rfl
theorem test_subcs_most_negative : exec (.subcs 0 0xFFFFFFFF) (withCarry (.defined true))
    = .next { withCarry (.defined true) with responses := [some 0] } := rfl
theorem test_subcs_zero_minus_borrow : exec (.subcs 0 0) (withCarry (.defined true))
    = .next { withCarry (.defined true) with responses := [some 0xFFFFFFFF] } := rfl

theorem test_getc_undefined_sets_pv : ∃ t, exec .getc debugBuild = .next t ∧ t.pv = true ∧ t.carry = .undef :=
  ⟨_, rfl, rfl, rfl⟩

/-- The checksum K3 of section 3: the sum of `r * (x + 1)^2 * (y + 2)` over all pairs at width `W`. -/
def checksum (W : Nat) (f : Nat → Nat → Nat) : Nat :=
  ((List.range (2 ^ W)).map fun x => ((List.range (2 ^ W)).map fun y => f x y * (x + 1) ^ 2 * (y + 2)).sum).sum

theorem test_addcs_checksum : checksum 4 (fun x y => (addWords 4 x y true).1) = 1797376 := by decide +kernel
theorem test_subcs_checksum : checksum 4 (fun x y => (subWords 4 x y true).1) = 1705984 := by decide +kernel
theorem test_portable_checksum : checksum 4 (fun x y => (portableSub 4 9 x y true).1) = 1705984 := by decide +kernel
theorem test_native_checksum : checksum 4 (fun x y => (nativeSub 4 x y true).1) = 1705984 := by decide +kernel

/-! ### The step -/

theorem test_reset_wins_over_command :
    step { withCarry (.defined true) with inputs := [⟨true, some 0x9FFFFFFFF00000001⟩] } = .next (withCarry .undef) := rfl
theorem test_reserved_word_is_refused : step (presenting 0x80000000100000002) = .refused (.reservedOpcode 0x8) := rfl
theorem test_fetch_word_runs_first :
    step (State.reset.withFetchWord 72 0xD000000050000000A)
      = .next { withCarry (.defined true) with responses := [some 0xFFFFFFFB] } := rfl

/-! ### A platform after reset (R206) -/

theorem test_platform_reset_streams :
    ((platformReset 2)[0].drawStream, (platformReset 2)[1].drawStream) = (0, 1)
      ∧ ((platformReset 2)[1].carry, (platformReset 2)[1].pv) = (.undef, false) := by decide

/-! ### Assembly (R72) -/

theorem test_assemble_word_operation :
    Assembly.assemble 32 "rd = SUBS  0xA, 5 ; 10 - 5" = some ⟨some "rd", .subs 10 5⟩ := by decide
theorem test_assemble_call_form :
    Assembly.assemble 32 "set_carry(1)" = some ⟨none, .setc 1⟩
      ∧ Assembly.assemble 32 "ADDCS(0xFFFFFFFF,0)" = some ⟨none, .addcs 0xFFFFFFFF 0⟩
      ∧ Assembly.assemble 32 "c = get_carry()" = some ⟨some "c", .getc⟩ := by decide
theorem test_assemble_refuses :
    Assembly.assemble 32 "rd = DECL" = none ∧ Assembly.assemble 32 "rd = ADD 1, 2" = none
      ∧ Assembly.assemble 4 "SETC 16" = none ∧ Assembly.assemble 4 "SETC 15" = some ⟨none, .setc 15⟩ := by decide

/-! ### Witnesses: for each statement with hypotheses, a state and operands that meet them -/

theorem witness_OpcodeAloneSelectsCommand : 1 ≤ 1 ∧ 1 < 2 ^ 1 ∧ 0 < 2 ^ 1 ∧ 0xC ∈ [0x3, 0x4, 0x5, 0x6, 0x7, 0x8, 0xC] := by decide
theorem witness_DecodeEncodeRoundTrip : 1 ≤ 1 ∧ (Instr.adds 1 1).wf 1 = true := by decide
theorem witness_EncodeDecode_both_sides : canonicalWord 32 0xFFFFFFFFFFFFFFFFF = true ∧ canonicalWord 32 0x10000000000000001 = false
    ∧ canonicalWord 32 0x3FFFFFFFFFFFFFFFF = false ∧ canonicalWord 32 0x100000000000000000 = false := by decide
theorem witness_DecodedCommandsAreWellFormed : 1 ≤ 32 ∧ decode 32 0xFFFFFFFFF00000001 = .ok (.subcs 0xFFFFFFFF 1) := by decide
theorem witness_ResponseWordReadsBack_word : 1 ≤ 4 ∧ 15 < 2 ^ 4 ∧ decodeResponse 4 (encodeResponse 4 0 (some 15)) = some 15 := by decide
theorem witness_ResponseWordReadsBack_none : decodeResponse 4 (encodeResponse 4 31 none) = none := by decide
theorem witness_AssemblyLinesReadBack : (Instr.subcs 15 0).wf 4 = true := by decide
theorem witness_StepIsDecodeThenRule : decode State.reset.cfg.W 0xF0000000500000005 = .ok (.subcs 5 5)
    ∧ decode State.reset.cfg.W 0x30000000100000002 = .error (.reserved 0x3) ∧ State.reset.cfg.W = 32 := by decide
theorem witness_OnlyCommandsAndResetChangeTheCarry : ∃ t, step (presenting 0x20000000100000000) = .next t
    ∧ t.carry ≠ (presenting 0x20000000100000000).carry := ⟨_, rfl, by decide⟩
theorem witness_RefusedExactlyOnReservedOpcodes : (presenting 0xC0000000100000002).Inv
    ∧ reservedOpcode (opField 32 0xC0000000100000002) = true := by unfold State.Inv; decide
theorem witness_ReservedOpcodesAreRefused : 1 ≤ State.reset.cfg.W ∧ 0xFFFFFFFF < 2 ^ State.reset.cfg.W
    ∧ 0x3 ∈ [0x3, 0x4, 0x5, 0x6, 0x7, 0x8, 0xC] := by decide
/-- For the six word operations, at both ends of the operand range, with the carry defined and undefined. -/
theorem witness_word_operation_operands : 1 ≤ State.reset.cfg.W ∧ 0xFFFFFFFF < 2 ^ State.reset.cfg.W ∧ 0 < 2 ^ State.reset.cfg.W
    ∧ State.reset.carry = .undef ∧ (withCarry (.defined true)).carry = .defined true := by decide
theorem witness_ReadersAndWritersOfTheCarry : ∃ t, exec (.addcs 1 2) debugBuild = .next t ∧ t.draws = 1 := ⟨_, rfl, rfl⟩
theorem witness_UndefinedCarryReadsAsOneDrawnBit : (Instr.subcs 5 5).consuming = true ∧ State.reset.carry = .undef := by decide
theorem witness_PvIsSticky_set : ∃ t, exec (.addc 7 8) debugBuild = .next t ∧ t.pv = true ∧ debugBuild.pv = false := ⟨_, rfl, rfl, rfl⟩
theorem witness_PvIsSticky_output : debugBuild.Inv := by unfold State.Inv; decide
theorem witness_DebugPoison_next : ∃ t, step (presenting 0x10000000000000000) = .next t := ⟨_, rfl⟩
theorem witness_DebugPoison_refused : step (presenting 0x70000000000000000) = .refused (.reservedOpcode 0x7) := rfl
theorem witness_BlockRemembersOnlyCarryAndPv :
    withCarry (.defined true) ≠ { withCarry (.defined true) with responses := [some 1] } := by decide
theorem witness_ResetDiffersFromDecl : State.reset.Inv ∧ State.reset.cfg.debugPoison = false := by unfold State.Inv; decide
theorem witness_CarryOutAndResult : 0 < 2 ^ (withCarry (.defined true)).cfg.W ∧ 0xFFFFFFFF < 2 ^ (withCarry (.defined true)).cfg.W
    ∧ (withCarry (.defined true)).carry = .defined true := by decide
theorem witness_AdditionAndSubtractionLaws : 1 ≤ 1 ∧ 1 < 2 ^ 1 ∧ 0 < 2 ^ 1 ∧ (withCarry (.defined false)).carry = .defined false
    ∧ subWords 1 1 1 true = subWords 1 1 1 true := by decide
theorem witness_RippleAdder_Native : 15 < 2 ^ 4 ∧ rippleAdder 4 15 15 true = (15, true) := by decide
theorem witness_PortableDatapath : 1 ≤ 4 ∧ 2 * 4 ≤ 9 ∧ 15 < 2 ^ 4 ∧ portableSub 4 9 0 15 true = (0, true) := by decide
theorem witness_EveryDatapath : 1 ≤ State.reset.cfg.W ∧ 2 * State.reset.cfg.W ≤ 128 ∧ (Instr.subcs 0 0xFFFFFFFF).wf State.reset.cfg.W = true := by decide
theorem witness_RunPerformsTheList : 1 ≤ State.reset.cfg.W
    ∧ ∀ i ∈ [Instr.adds 0xFFFFFFFF 1, .addc 1 2], i.wf State.reset.cfg.W = true := by decide
theorem witness_chains : [(0xFFFFFFFF, 1), (1, 2)] ≠ []
    ∧ ∀ p ∈ [(0xFFFFFFFF, 1), (1, 2)], p.1 < 2 ^ State.reset.cfg.W ∧ p.2 < 2 ^ State.reset.cfg.W := by decide
theorem witness_OneCarry : 0 < 2 ^ State.reset.cfg.W ∧ 0xFFFFFFFF < 2 ^ State.reset.cfg.W := by decide
theorem witness_GetcSetcBracket : (withCarry (.defined true)).carry = .defined true ∧ conforming false [.subs 1 2, .addc 0 0] = true := by decide
theorem witness_Idempotent : (Instr.adds 1 2).setting = true ∧ (Instr.adds 1 2).consuming = false := by decide
theorem witness_Idempotent_getc : ∃ t, exec .getc State.reset = .next t := ⟨_, rfl⟩
theorem witness_Conforming_both_sides : conformingWords 32 false [0x9FFFFFFFF00000001, 0xA0000000100000002] = true
    ∧ conformingWords 32 false [0x10000000000000000] = false ∧ conformingWords 32 true [0x30000000000000000] = false
    ∧ (presenting 0x10000000000000000).inputs = [0x10000000000000000].map HostInput.command ++ [] := by decide
theorem witness_Deterministic : State.reset.cfg.W = debugBuild.cfg.W ∧ State.reset ≠ debugBuild
    ∧ conforming State.reset.carry.isDefined [.subs 3 4, .subcs 5 5, .getc] = true
    ∧ conforming debugBuild.carry.isDefined [.subs 3 4, .subcs 5 5, .getc] = true := by decide
theorem witness_Deterministic_reading : conforming (withCarry (.defined true)).carry.isDefined [.getc] = true := by decide
theorem witness_InstancesAreIndependent : (0 : Fin 2) ≠ 1
    ∧ (∃ p, platformStep (0 : Fin 2) #v[presenting 0x20000000100000000, State.reset] = .next p)
    ∧ ∃ p, platformStep (1 : Fin 2) #v[presenting 0x20000000100000000, State.reset] = .next p := ⟨by decide, ⟨_, rfl⟩, ⟨_, rfl⟩⟩
theorem witness_StepKeepsTheInvariant : (presenting 0x9FFFFFFFF00000001).Inv ∧ ∃ t, step (presenting 0x9FFFFFFFF00000001) = .next t :=
  ⟨by unfold State.Inv; decide, _, rfl⟩

end Sys2Proof.Tests
end

section
/-! What reads and what writes the carry (`10_state.md`): the three classes of commands by name, what `exec` does to the
carry and the draw counter by class, and the statements R25 and R27. -/

namespace Sys2Proof

/-- The consuming commands of R19, by name. -/
theorem Instr.consuming_iff (i : Instr) : i.consuming = true ↔
    i = .getc ∨ ∃ x y, i = .addc x y ∨ i = .addcs x y ∨ i = .subc x y ∨ i = .subcs x y := by
  cases i <;> simp [Instr.consuming]

/-- The setting commands of R19, by name. -/
theorem Instr.setting_iff (i : Instr) : i.setting = true ↔
    (∃ v, i = .setc v) ∨ ∃ x y, i = .adds x y ∨ i = .addcs x y ∨ i = .subs x y ∨ i = .subcs x y := by
  cases i <;> simp [Instr.setting]

/-- The poisoning commands of R19, by name. -/
theorem Instr.poisoning_iff (i : Instr) : i.poisoning = true ↔
    i = .decl ∨ i = .getc ∨ ∃ x y, i = .addc x y ∨ i = .subc x y := by
  cases i <;> simp [Instr.poisoning]

/-- Every command either sets or poisons the carry, never both (R25). -/
theorem Instr.poisoning_eq_not_setting (i : Instr) : i.poisoning = !i.setting := by
  cases i <;> rfl

end Sys2Proof

namespace Sys2Proof.Machine

/-- CD = 0 holds of the undefined carry only (R23). -/
theorem Carry.isDefined_eq_false_iff (c : Carry) : c.isDefined = false ↔ c = .undef := by
  cases c <;> simp

/-- A command draws once when it consumes an undefined carry, and not at all otherwise (R15). -/
theorem exec_draws {i : Instr} {s t : State} (h : exec i s = .next t) :
    t.draws = s.draws + (i.consuming && !s.carry.isDefined).toNat := by
  obtain ⟨_, _, rfl, -, -⟩ := exec_inversion h
  rfl

/-- A command leaves the carry defined exactly when it is a setting command (R25). -/
theorem exec_carry_isDefined {i : Instr} {s t : State} (h : exec i s = .next t) :
    t.carry.isDefined = i.setting := by
  obtain ⟨_, _, rfl, hcarry, -⟩ := exec_inversion h
  exact hcarry

/-- A command leaves the carry undefined exactly when it is a poisoning command (R25). -/
theorem exec_carry_eq_undef_iff {i : Instr} {s t : State} (h : exec i s = .next t) :
    t.carry = .undef ↔ i.poisoning = true := by
  rw [← Carry.isDefined_eq_false_iff, exec_carry_isDefined h, i.poisoning_eq_not_setting, Bool.not_eq_true']

/-- A command takes nothing from what the host presents next. -/
theorem exec_inputs {i : Instr} {s t : State} (h : exec i s = .next t) : t.inputs = s.inputs := by
  obtain ⟨_, _, rfl, -, -⟩ := exec_inversion h
  rfl

/-- A setting word operation that reads no carry overwrites whatever carry there was. -/
theorem opSetting_withCarry (p : Nat × Bool) (s : State) (c : Carry) :
    ({ s with carry := c } : State).opSetting p = s.opSetting p := by
  rw [opSetting_eq, opSetting_eq]

/-- ADDS does not read the carry (R25, R121). -/
theorem exec_adds_withCarry (x y : Nat) (s : State) (c : Carry) :
    exec (.adds x y) { s with carry := c } = exec (.adds x y) s :=
  congrArg Host.Outcome.next (opSetting_withCarry _ s c)

/-- SUBS does not read the carry (R25, R124). -/
theorem exec_subs_withCarry (x y : Nat) (s : State) (c : Carry) :
    exec (.subs x y) { s with carry := c } = exec (.subs x y) s :=
  congrArg Host.Outcome.next (opSetting_withCarry _ s c)

/-- A step that changes the carry took an input, and that input asserted `rst` or presented a command (R27). -/
theorem step_input_of_carry_ne {s t : State} (h : step s = .next t) (hne : t.carry ≠ s.carry) :
    ∃ input rest, s.inputs = input :: rest ∧ t.inputs = rest
      ∧ (input.rst = true ∨ ∃ cw i, input.cmd = some cw ∧ decode s.cfg.W cw = .ok i) := by
  obtain ⟨-, rfl⟩ | ⟨input, rest, hin, ⟨hrst, rfl⟩ | ⟨-, -, rfl⟩ | ⟨cw, i, -, hcmd, hdec, hexec⟩⟩ := step_inversion h
  · exact absurd rfl hne
  · exact ⟨input, rest, hin, rfl, .inl hrst⟩
  · exact absurd rfl hne
  · exact ⟨input, rest, hin, exec_inputs hexec, .inr ⟨cw, i, hcmd, hdec⟩⟩

/-- Settles O11, clause by clause from what a step does on each kind of input. -/
theorem onlyCommandsAndResetChangeTheCarry : Obligations.OnlyCommandsAndResetChangeTheCarry :=
  ⟨fun _ => step_of_noInput, fun _ _ => step_of_noCommand rfl rfl rfl, fun _ _ => step_input_of_carry_ne⟩

/-- Settles O24: the classes of R19 by name, and what `exec` does to the carry and the draw counter in each. -/
theorem readersAndWritersOfTheCarry : Obligations.ReadersAndWritersOfTheCarry := by
  refine ⟨fun i s t h => ⟨exec_draws h, ?_, exec_carry_eq_undef_iff h⟩, Instr.consuming_iff, Instr.setting_iff,
    Instr.poisoning_iff, State.resetEvent_carry, fun x y s c => ⟨exec_adds_withCarry x y s c, exec_subs_withCarry x y s c⟩⟩
  rw [exec_carry_isDefined h]

end Sys2Proof.Machine
end

section
/-! The dispatch of R74 (`30_encoding.md`): a step on a presented word, by what the word decodes to, and the rule's worked
example. -/

namespace Sys2Proof.Machine

/-- A presented word that decodes is performed by the rule of its command. -/
theorem step_of_decode_ok {s : State} {input : HostInput} {rest : List HostInput} {cw : Nat} {i : Instr}
    (h : s.inputs = input :: rest) (hr : input.rst = false) (hc : input.cmd = some cw)
    (hd : decode s.cfg.W cw = .ok i) : step s = exec i { s with inputs := rest } := by
  rw [step_of_command h hr hc, hd]

/-- A presented word that the decoder rejects is refused. -/
theorem step_of_decode_error {s : State} {input : HostInput} {rest : List HostInput} {cw : Nat} {e : DecodeError}
    (h : s.inputs = input :: rest) (hr : input.rst = false) (hc : input.cmd = some cw)
    (hd : decode s.cfg.W cw = .error e) : step s = .refused (refusalOf e) := by
  rw [step_of_command h hr hc, hd]

/-- ADDS as a whole next state (R121). -/
theorem exec_adds_eq (x y : Nat) (s : State) : exec (.adds x y) s = .next { s with
    carry := .defined (decide (2 ^ s.cfg.W ≤ x + y))
    responses := s.responses ++ [some ((x + y) % 2 ^ s.cfg.W)] } := by
  have hexec : exec (.adds x y) s = .next (s.opSetting (addWords s.cfg.W x y false)) := rfl
  rw [hexec, opSetting_eq, addWords_fst, addWords_snd]
  rfl

/-- The word of R74's worked example. -/
theorem decode_workedExample : decode 32 0x9FFFFFFFF00000001 = .ok (.adds 0xFFFFFFFF 1) := by decide

/-- R74's worked example: at `W = 32` the sum wraps to 0 and carries out. -/
theorem step_workedExample (s : State) (rest : List HostInput) (hW : s.cfg.W = 32) :
    step { s with inputs := ⟨false, some 0x9FFFFFFFF00000001⟩ :: rest }
      = .next { s with inputs := rest, carry := .defined true, responses := s.responses ++ [some 0] } := by
  have hdec : decode s.cfg.W 0x9FFFFFFFF00000001 = .ok (.adds 0xFFFFFFFF 1) := by rw [hW, decode_workedExample]
  refine Eq.trans (step_of_decode_ok rfl rfl rfl hdec) ?_
  rw [exec_adds_eq]
  simp [hW]

/-- Settles O8: a decoded word is performed, a reserved opcode refused, and the worked example is one ADDS. -/
theorem stepIsDecodeThenRule : Obligations.StepIsDecodeThenRule :=
  ⟨fun _ _ _ _ hdec => step_of_decode_ok rfl rfl rfl hdec,
    fun _ _ _ op hdec => step_of_decode_error (e := .reserved op) rfl rfl rfl hdec, step_workedExample⟩

end Sys2Proof.Machine
end

section
/-! The six word operations (`41_word_arithmetic.md`): each as a whole next state, in natural-number arithmetic, over the
shape of R126 it has. The carry-in `c` of the four consuming commands is the bit of `ReadCarry()`. -/

namespace Sys2Proof.Machine

/-- ADDC as a whole next state (R120). -/
theorem exec_addc_eq (x y : Nat) (s : State) : exec (.addc x y) s = .next { s with
    carry := .undef
    responses := s.responses ++ [some ((x + y + s.readCarry.1.toNat) % 2 ^ s.cfg.W)]
    pv := s.pv || (s.cfg.debugPoison && !s.carry.isDefined)
    draws := s.draws + (!s.carry.isDefined).toNat } := by
  have hexec : exec (.addc x y) s = .next (s.opConsuming (addWords s.cfg.W x y)) := rfl
  rw [hexec, opConsuming_eq, addWords_fst]

/-- ADDCS as a whole next state (R122). -/
theorem exec_addcs_eq (x y : Nat) (s : State) : exec (.addcs x y) s = .next { s with
    carry := .defined (decide (2 ^ s.cfg.W ≤ x + y + s.readCarry.1.toNat))
    responses := s.responses ++ [some ((x + y + s.readCarry.1.toNat) % 2 ^ s.cfg.W)]
    pv := s.pv || (s.cfg.debugPoison && !s.carry.isDefined)
    draws := s.draws + (!s.carry.isDefined).toNat } := by
  have hexec : exec (.addcs x y) s = .next (s.opConsumingSetting (addWords s.cfg.W x y)) := rfl
  rw [hexec, opConsumingSetting_eq, addWords_fst, addWords_snd]

section Subtraction

variable {s : State} {x y : Nat} (hx : x < 2 ^ s.cfg.W) (hy : y < 2 ^ s.cfg.W)
include hx hy

/-- SUBC on two words as a whole next state (R123). -/
theorem exec_subc_eq : exec (.subc x y) s = .next { s with
    carry := .undef
    responses := s.responses ++ [some (if x < y + s.readCarry.1.toNat then x + 2 ^ s.cfg.W - (y + s.readCarry.1.toNat)
      else x - (y + s.readCarry.1.toNat))]
    pv := s.pv || (s.cfg.debugPoison && !s.carry.isDefined)
    draws := s.draws + (!s.carry.isDefined).toNat } := by
  have hexec : exec (.subc x y) s = .next (s.opConsuming (subWords s.cfg.W x y)) := rfl
  rw [hexec, opConsuming_eq, subWords_fst _ hx hy]

/-- SUBS on two words as a whole next state (R124). -/
theorem exec_subs_eq : exec (.subs x y) s = .next { s with
    carry := .defined (decide (x < y))
    responses := s.responses ++ [some (if x < y then x + 2 ^ s.cfg.W - y else x - y)] } := by
  have hexec : exec (.subs x y) s = .next (s.opSetting (subWords s.cfg.W x y false)) := rfl
  rw [hexec, opSetting_eq, subWords_fst _ hx hy, subWords_snd]
  rfl

/-- SUBCS on two words as a whole next state (R125). -/
theorem exec_subcs_eq : exec (.subcs x y) s = .next { s with
    carry := .defined (decide (x < y + s.readCarry.1.toNat))
    responses := s.responses ++ [some (if x < y + s.readCarry.1.toNat then x + 2 ^ s.cfg.W - (y + s.readCarry.1.toNat)
      else x - (y + s.readCarry.1.toNat))]
    pv := s.pv || (s.cfg.debugPoison && !s.carry.isDefined)
    draws := s.draws + (!s.carry.isDefined).toNat } := by
  have hexec : exec (.subcs x y) s = .next (s.opConsumingSetting (subWords s.cfg.W x y)) := rfl
  rw [hexec, opConsumingSetting_eq, subWords_fst _ hx hy, subWords_snd]

end Subtraction

/-- Settles O17: opcode 0xA decodes to ADDC, and its carry-in is the bit of the carry read. -/
theorem addcAddsWithCarryIn : Obligations.AddcAddsWithCarryIn := fun s x y hW hx hy =>
  ⟨decode_packWord hW (by norm_num) hx hy, s.readCarry.1, readCarry_bit s, exec_addc_eq x y s⟩

/-- Settles O18: opcode 0x9 decodes to ADDS, which reads no carry. -/
theorem addsAddsAndSetsTheCarry : Obligations.AddsAddsAndSetsTheCarry := fun s x y hW hx hy =>
  ⟨decode_packWord hW (by norm_num) hx hy, exec_adds_eq x y s⟩

/-- Settles O19: opcode 0xB decodes to ADDCS; result and carry-out use the one bit of the carry read. -/
theorem addcsAddsWithCarryInAndSetsTheCarry : Obligations.AddcsAddsWithCarryInAndSetsTheCarry := fun s x y hW hx hy =>
  ⟨decode_packWord hW (by norm_num) hx hy, s.readCarry.1, readCarry_bit s, exec_addcs_eq x y s⟩

/-- Settles O20: opcode 0xE decodes to SUBC, and its borrow-in is the bit of the carry read. -/
theorem subcSubtractsWithBorrowIn : Obligations.SubcSubtractsWithBorrowIn := fun s _ _ hW hx hy =>
  ⟨decode_packWord hW (by norm_num) hx hy, s.readCarry.1, readCarry_bit s, exec_subc_eq hx hy⟩

/-- Settles O21: opcode 0xD decodes to SUBS, which reads no carry. -/
theorem subsSubtractsAndSetsTheBorrow : Obligations.SubsSubtractsAndSetsTheBorrow := fun _ _ _ hW hx hy =>
  ⟨decode_packWord hW (by norm_num) hx hy, exec_subs_eq hx hy⟩

/-- Settles O22: opcode 0xF decodes to SUBCS; result and borrow-out use the one bit of the carry read. -/
theorem subcsSubtractsWithBorrowInAndSetsTheBorrow : Obligations.SubcsSubtractsWithBorrowInAndSetsTheBorrow :=
  fun s _ _ hW hx hy =>
    ⟨decode_packWord hW (by norm_num) hx hy, s.readCarry.1, readCarry_bit s, exec_subcs_eq hx hy⟩

end Sys2Proof.Machine
end

section
/-! The decoder and the encoder are inverse to each other (`30_encoding.md` section 4): every command as the packing of
its opcode and two operand fields, and what the opcode map does with the fields. -/

namespace Sys2Proof

/-- What the encoder puts in the field `x`: the first operand, and 0 where the command ignores the field (R68). -/
def Instr.xOperand : Instr → Nat
  | .decl => 0
  | .getc => 0
  | .setc v => v
  | .adds x _ => x
  | .addc x _ => x
  | .addcs x _ => x
  | .subs x _ => x
  | .subc x _ => x
  | .subcs x _ => x

/-- What the encoder puts in the field `y`: the second operand, and 0 where the command ignores the field (R68). -/
def Instr.yOperand : Instr → Nat
  | .decl => 0
  | .getc => 0
  | .setc _ => 0
  | .adds _ y => y
  | .addc _ y => y
  | .addcs _ y => y
  | .subs _ y => y
  | .subc _ y => y
  | .subcs _ y => y

/-- The encoder packs the opcode and the two operand fields. -/
theorem encode_eq_packWord (W : Nat) (i : Instr) : encode W i = packWord W i.opcode i.xOperand i.yOperand := by
  cases i <;> rfl

/-- A command is well formed when both of its operand fields fit. -/
theorem Instr.wf_iff (W : Nat) (i : Instr) : i.wf W = true ↔ i.xOperand < 2 ^ W ∧ i.yOperand < 2 ^ W := by
  cases i <;> simp [Instr.wf, Instr.xOperand, Instr.yOperand, wordFits_iff]

/-- The opcode of a command has four bits. -/
theorem Instr.opcode_lt (i : Instr) : i.opcode < 16 := by
  cases i <;> simp [Instr.opcode]

/-- No command has a reserved opcode. -/
theorem Instr.reservedOpcode_opcode (i : Instr) : reservedOpcode i.opcode = false := by
  cases i <;> rfl

/-- The opcode map takes the fields of a command back to it. -/
theorem decodeFields_operands (i : Instr) : decodeFields i.opcode i.xOperand i.yOperand = .ok i := by
  cases i <;> rfl

/-- The opcode map gives a command with that opcode and the two fields as its operands, 0 standing for ignored ones. -/
theorem decodeFields_eq_ok {op x y : Nat} {i : Instr} (h : decodeFields op x y = .ok i) :
    i.opcode = op ∧ i.xOperand = (if op = 0 ∨ op = 1 then 0 else x)
      ∧ i.yOperand = (if op = 0 ∨ op = 1 ∨ op = 2 then 0 else y) := by
  unfold decodeFields at h
  split at h <;> cases h <;> simp [Instr.opcode, Instr.xOperand, Instr.yOperand]

/-- The opcode map rejects the seven reserved opcodes, under their number, and no other. -/
theorem decodeFields_eq_error_iff {op : Nat} (hop : op < 16) (x y : Nat) (e : DecodeError) :
    decodeFields op x y = .error e ↔ reservedOpcode op = true ∧ e = .reserved op := by
  interval_cases op <;> simp [decodeFields, reservedOpcode, eq_comm]

/-- The decoder rejects a word that the ports can carry exactly when its opcode is reserved. -/
theorem decode_eq_error_iff {W cw : Nat} (hcw : cw < 2 ^ (4 + 2 * W)) (e : DecodeError) :
    decode W cw = .error e ↔ reservedOpcode (opField W cw) = true ∧ e = .reserved (opField W cw) := by
  rw [decode, if_pos hcw, decodeFields_eq_error_iff (opField_lt W cw)]

/-- A reserved opcode is rejected whatever the operand fields hold (R70). -/
theorem decode_packWord_reserved {W op x y : Nat} (hW : 1 ≤ W) (hx : x < 2 ^ W) (hy : y < 2 ^ W)
    (hop : op ∈ [0x3, 0x4, 0x5, 0x6, 0x7, 0x8, 0xC]) : decode W (packWord W op x y) = .error (.reserved op) := by
  have hlt : op < 16 := (by decide : ∀ k ∈ [0x3, 0x4, 0x5, 0x6, 0x7, 0x8, 0xC], k < 16) op hop
  have hreserved : reservedOpcode op = true := List.contains_iff_mem.mpr hop
  rw [decode_packWord hW hlt hx hy, decodeFields_eq_error_iff hlt]
  exact ⟨hreserved, rfl⟩

/-- Decoding the word of a well-formed command gives the command back. -/
theorem decode_encode {W : Nat} {i : Instr} (hW : 1 ≤ W) (hwf : i.wf W = true) : decode W (encode W i) = .ok i := by
  obtain ⟨hx, hy⟩ := (i.wf_iff W).mp hwf
  rw [encode_eq_packWord, decode_packWord hW i.opcode_lt hx hy, decodeFields_operands]

/-- What a word decodes to has operands that fit: its own fields, or 0. -/
theorem wf_of_decode {W cw : Nat} {i : Instr} (hW : 1 ≤ W) (h : decode W cw = .ok i) : i.wf W = true := by
  obtain ⟨-, hfields⟩ := Machine.decode_eq_ok h
  obtain ⟨-, hx, hy⟩ := decodeFields_eq_ok hfields
  rw [Instr.wf_iff, hx, hy]
  constructor
  · split
    · exact Nat.two_pow_pos W
    · exact xField_lt hW cw
  · split
    · exact Nat.two_pow_pos W
    · exact yField_lt hW cw

/-- R68 spelled out: a word the ports can carry, a legal opcode, and 0 in the fields the opcode ignores. -/
theorem canonicalWord_iff (W cw : Nat) : canonicalWord W cw = true ↔
    cw < 2 ^ (4 + 2 * W) ∧ reservedOpcode (opField W cw) = false
      ∧ (opField W cw = 0 ∨ opField W cw = 1 → xField W cw = 0 ∧ yField W cw = 0)
      ∧ (opField W cw = 2 → yField W cw = 0) := by
  simp only [canonicalWord, Bool.and_eq_true, decide_eq_true_eq, Bool.not_eq_true', Bool.or_eq_true, beq_iff_eq,
    Bool.or_eq_false_iff, beq_eq_false_iff_ne, and_assoc]
  tauto

/-- A word with a legal opcode decodes. -/
theorem exists_decode_of_not_reserved {W cw : Nat} (hcw : cw < 2 ^ (4 + 2 * W))
    (h : reservedOpcode (opField W cw) = false) : ∃ i, decode W cw = .ok i := by
  cases hdec : decode W cw with
  | ok i => exact ⟨i, rfl⟩
  | error e =>
    rw [decode_eq_error_iff hcw, h] at hdec
    exact absurd hdec.1 Bool.false_ne_true

/-- The encoding of a command that a canonical word decodes to is the word: its operands are the word's fields. -/
theorem encode_of_decode_canonical {W cw : Nat} {i : Instr} (hW : 1 ≤ W) (hcanon : canonicalWord W cw = true)
    (h : decode W cw = .ok i) : encode W i = cw := by
  obtain ⟨hcw, -, hboth, hy0⟩ := (canonicalWord_iff W cw).mp hcanon
  obtain ⟨hop, hx, hy⟩ := decodeFields_eq_ok (Machine.decode_eq_ok h).2
  have hxField : i.xOperand = xField W cw := by
    rw [hx]
    split
    · next hignored => exact (hboth hignored).1.symm
    · rfl
  have hyField : i.yOperand = yField W cw := by
    rw [hy]
    split
    · next hignored =>
      obtain h0 | h1 | h2 := hignored
      · exact (hboth (.inl h0)).2.symm
      · exact (hboth (.inr h1)).2.symm
      · exact (hy0 h2).symm
    · rfl
  rw [encode_eq_packWord, hop, hxField, hyField, packWord_fields hW hcw]

/-- The encoder gives canonical words only. -/
theorem canonicalWord_encode {W : Nat} {i : Instr} (hW : 1 ≤ W) (hwf : i.wf W = true) :
    canonicalWord W (encode W i) = true := by
  obtain ⟨hx, hy⟩ := (i.wf_iff W).mp hwf
  rw [canonicalWord_iff, encode_eq_packWord, opField_packWord i.opcode_lt hx hy, xField_packWord hW hx hy,
    yField_packWord hW hy]
  refine ⟨packWord_lt i.opcode_lt hx hy, i.reservedOpcode_opcode, ?_⟩
  cases i <;> simp [Instr.opcode, Instr.xOperand, Instr.yOperand]

/-- A response of at most `W` bits makes a response word of `1 + W` bits that reads back (R64). -/
theorem responseWord_reads_back {W : Nat} (hW : 1 ≤ W) (junk : Nat) (resp : Response)
    (hfits : ∀ r, resp = some r → r < 2 ^ W) :
    encodeResponse W junk resp < 2 ^ (1 + W) ∧ decodeResponse W (encodeResponse W junk resp) = resp := by
  have hrv (v : Nat) : slice W W v = v / 2 ^ W % 2 := by rw [slice, Nat.sub_self]; rfl
  have hr (v : Nat) : slice (W - 1) 0 v = v % 2 ^ W := by
    rw [slice, pow_zero, Nat.div_one, Nat.sub_zero, Nat.sub_add_cancel hW]
  have hpow : 2 ^ (1 + W) = 2 ^ W + 2 ^ W := by rw [pow_add, pow_one, two_mul]
  cases resp with
  | none =>
    have hjunk := Nat.mod_lt junk (Nat.two_pow_pos W)
    refine ⟨by rw [encodeResponse]; omega, ?_⟩
    rw [decodeResponse, encodeResponse, hrv, Nat.div_eq_of_lt hjunk]
    rfl
  | some r =>
    have hlt := hfits r rfl
    refine ⟨by rw [encodeResponse]; omega, ?_⟩
    rw [decodeResponse, encodeResponse, hrv, hr, Nat.add_div_left _ (Nat.two_pow_pos W), Nat.div_eq_of_lt hlt,
      Nat.add_mod_left, Nat.mod_eq_of_lt hlt]
    rfl

/-- Settles O3: the encoder packs fields that the opcode map takes back to the command. -/
theorem decodeEncodeRoundTrip : Obligations.DecodeEncodeRoundTrip := fun _ _ => decode_encode

/-- Settles O2: a packed word decodes by its fields. -/
theorem opcodeAloneSelectsCommand : Obligations.OpcodeAloneSelectsCommand := by
  intro W x y hW hx hy
  have hdec (op : Nat) (hop : op < 16) := decode_packWord (op := op) hW hop hx hy
  exact ⟨hdec 0x0 (by norm_num), hdec 0x1 (by norm_num), hdec 0x2 (by norm_num), hdec 0x9 (by norm_num),
    hdec 0xA (by norm_num), hdec 0xB (by norm_num), hdec 0xD (by norm_num), hdec 0xE (by norm_num),
    hdec 0xF (by norm_num), fun _ => decode_packWord_reserved hW hx hy⟩

/-- Settles O4: the encoder gives canonical words, and a canonical word holds the operands of its command. -/
theorem encodeDecodeExactlyOnCanonicalWords : Obligations.EncodeDecodeExactlyOnCanonicalWords := by
  intro W cw hW
  constructor
  · rintro ⟨i, hdec, rfl⟩
    exact canonicalWord_encode hW (wf_of_decode hW hdec)
  · intro hcanon
    obtain ⟨hcw, hlegal, -⟩ := (canonicalWord_iff W cw).mp hcanon
    obtain ⟨i, hdec⟩ := exists_decode_of_not_reserved hcw hlegal
    exact ⟨i, hdec, encode_of_decode_canonical hW hcanon hdec⟩

/-- Settles O5: the operands of a decoded command are fields of the word, or 0. -/
theorem decodedCommandsAreWellFormed : Obligations.DecodedCommandsAreWellFormed := fun _ _ _ => wf_of_decode

/-- Settles O6, by the two kinds of response. -/
theorem responseWordReadsBack : Obligations.ResponseWordReadsBack := fun _ junk resp hW =>
  responseWord_reads_back hW junk resp

/-- Settles O1, word by word. -/
theorem specWordsDecode : Obligations.SpecWordsDecode :=
  ⟨by decide, by decide, by decide, by decide, by decide, by decide, by decide, by decide, by decide, by decide,
    by decide⟩

end Sys2Proof
end

section
/-! A step on a presented word and the refusals (`30_encoding.md` sections 5 and 7), and what every step keeps. -/

namespace Sys2Proof.Machine

/-- Everything a step that is refused can have met: with `rst` low, a word that the decoder rejects. -/
theorem step_refused_inversion {s : State} {why : Refusal} (h : step s = .refused why) :
    ∃ cw rest e, s.inputs = ⟨false, some cw⟩ :: rest ∧ decode s.cfg.W cw = .error e ∧ why = refusalOf e := by
  cases hin : s.inputs with
  | nil => rw [step_of_noInput hin] at h; cases h
  | cons input rest =>
    obtain ⟨rst, cmd⟩ := input
    cases rst with
    | true => rw [step_of_rst hin rfl] at h; cases h
    | false =>
      cases cmd with
      | none => rw [step_of_noCommand hin rfl rfl] at h; cases h
      | some cw =>
        cases hdec : decode s.cfg.W cw with
        | ok i =>
          rw [step_of_decode_ok hin rfl rfl hdec] at h
          exact absurd h (exec_ne_refused i _ why)
        | error e =>
          rw [step_of_decode_error hin rfl rfl hdec] at h
          cases h
          exact ⟨cw, rest, e, rfl, hdec, rfl⟩

/-- Settles O12: the only words of the ports' width that the decoder rejects are those with a reserved opcode. -/
theorem refusedExactlyOnReservedOpcodes : Obligations.RefusedExactlyOnReservedOpcodes := by
  rintro s why ⟨-, -, hinputs, -⟩
  have hfits {cw : Nat} {rest : List HostInput} (hin : s.inputs = ⟨false, some cw⟩ :: rest) :
      cw < 2 ^ (4 + 2 * s.cfg.W) :=
    of_decide_eq_true (hinputs ⟨false, some cw⟩ (by rw [hin]; exact List.mem_cons_self))
  constructor
  · intro h
    obtain ⟨cw, rest, e, hin, hdec, rfl⟩ := step_refused_inversion h
    obtain ⟨hreserved, rfl⟩ := (decode_eq_error_iff (hfits hin) e).mp hdec
    exact ⟨cw, rest, hin, hreserved, rfl⟩
  · rintro ⟨cw, rest, hin, hreserved, rfl⟩
    exact step_of_decode_error hin rfl rfl ((decode_eq_error_iff (hfits hin) _).mpr ⟨hreserved, rfl⟩)

/-- Settles O13: a packed word with a reserved opcode is rejected, so the step is refused. -/
theorem reservedOpcodesAreRefused : Obligations.ReservedOpcodesAreRefused := fun _ op _ _ _ hW hx hy hop =>
  step_of_decode_error (e := .reserved op) rfl rfl rfl (decode_packWord_reserved hW hx hy hop)

/-- Settles O9: `rst` high decides the step alone. -/
theorem resetWinsAndAbandonsTheCommand : Obligations.ResetWinsAndAbandonsTheCommand := fun s cmd rest =>
  step_of_rst (s := { s with inputs := ⟨true, cmd⟩ :: rest }) rfl rfl

/-- Settles O10, field by field. -/
theorem resetStateHasSpecValues : Obligations.ResetStateHasSpecValues := ⟨rfl, rfl, rfl, rfl⟩

/-- The invariant does not ask for more inputs than there are left. -/
theorem State.Inv.dropInput {s : State} {input : HostInput} {rest : List HostInput} (h : s.Inv)
    (hin : s.inputs = input :: rest) : ({ s with inputs := rest } : State).Inv := by
  obtain ⟨hcfg, hpv, hinputs, hresponses⟩ := h
  exact ⟨hcfg, hpv, fun i hi => hinputs i (hin ▸ List.mem_cons_of_mem input hi), hresponses⟩

/-- Reset keeps the invariant. -/
theorem State.Inv.resetEvent {s : State} (h : s.Inv) : s.resetEvent.Inv := by
  obtain ⟨hcfg, -, hinputs, hresponses⟩ := h
  exact ⟨hcfg, fun _ => rfl, hinputs, hresponses⟩

/-- Legal parameters have a width of at least 1 (R7). -/
theorem State.Inv.width_pos {s : State} (h : s.Inv) : 1 ≤ s.cfg.W :=
  of_decide_eq_true ((Bool.and_eq_true _ _).mp h.1).1

/-- A command keeps the invariant: its response fits the port, and it sets PV in a debug build only. -/
theorem exec_preserves_inv {i : Instr} {s t : State} (hinv : s.Inv) (h : exec i s = .next t) : t.Inv := by
  have hW := hinv.width_pos
  obtain ⟨hcfg, hpv, hinputs, hresponses⟩ := hinv
  obtain ⟨carry, resp, rfl, -, hfits⟩ := exec_inversion h
  refine ⟨hcfg, fun hdebug => ?_, hinputs, fun r hr => ?_⟩
  · have hdebug' : s.cfg.debugPoison = false := hdebug
    simp [hdebug', hpv hdebug']
  · obtain hr | hr := List.mem_append.mp hr
    · exact hresponses r hr
    · obtain rfl := List.mem_singleton.mp hr
      cases r with
      | none => rfl
      | some w => exact wordFits_iff.mpr (hfits hW w rfl)

/-- Settles O48, by the kinds of input a step can take. -/
theorem stepKeepsTheInvariant : Obligations.StepKeepsTheInvariant := by
  intro s t hinv h
  obtain ⟨-, rfl⟩ | ⟨input, rest, hin, ⟨-, rfl⟩ | ⟨-, -, rfl⟩ | ⟨cw, i, -, -, -, hexec⟩⟩ := step_inversion h
  · exact hinv
  · exact (hinv.dropInput hin).resetEvent
  · exact hinv.dropInput hin
  · exact exec_preserves_inv (hinv.dropInput hin) hexec

/-- Settles O47: the defaults are legal, and nothing has been presented or answered yet. -/
theorem resetMeetsTheInvariant : Obligations.ResetMeetsTheInvariant :=
  ⟨by decide, fun _ => rfl, fun _ h => absurd h List.not_mem_nil, fun _ h => absurd h List.not_mem_nil⟩

end Sys2Proof.Machine
end

section
/-! What a command does, once for all nine: its response and the carry it leaves, as functions of the width and of the
carry bit it reads, and `exec` as one equation over them. The rules about PV, `DEBUG_POISON` and the undefined carry
(`10_state.md`) follow from that equation. -/

namespace Sys2Proof

open Sys2Proof.Machine

/-- The response of a command whose carry read gave `c` (R100 to R102, R120 to R125). -/
def Instr.answer (W : Nat) (c : Bool) : Instr → Response
  | .decl => none
  | .getc => some (carryWord c)
  | .setc _ => none
  | .adds x y => some (addWords W x y false).1
  | .addc x y => some (addWords W x y c).1
  | .addcs x y => some (addWords W x y c).1
  | .subs x y => some (subWords W x y false).1
  | .subc x y => some (subWords W x y c).1
  | .subcs x y => some (subWords W x y c).1

/-- The carry that a command leaves whose carry read gave `c` (R100 to R102, R120 to R125). -/
def Instr.carryAfter (W : Nat) (c : Bool) : Instr → Carry
  | .decl => .undef
  | .getc => .undef
  | .setc v => .defined (setcBit v)
  | .adds x y => .defined (addWords W x y false).2
  | .addc _ _ => .undef
  | .addcs x y => .defined (addWords W x y c).2
  | .subs x y => .defined (subWords W x y false).2
  | .subc _ _ => .undef
  | .subcs x y => .defined (subWords W x y c).2

/-- A command that reads no carry answers the same for every bit. -/
theorem Instr.answer_of_not_consuming {i : Instr} (h : i.consuming = false) (W : Nat) (c c' : Bool) :
    i.answer W c = i.answer W c' := by
  cases i with
  | decl | setc v | adds x y | subs x y => rfl
  | getc | addc x y | addcs x y | subc x y | subcs x y => cases h

/-- A command that reads no carry leaves the same carry for every bit. -/
theorem Instr.carryAfter_of_not_consuming {i : Instr} (h : i.consuming = false) (W : Nat) (c c' : Bool) :
    i.carryAfter W c = i.carryAfter W c' := by
  cases i with
  | decl | setc v | adds x y | subs x y => rfl
  | getc | addc x y | addcs x y | subc x y | subcs x y => cases h

/-- DECL and SETC are the commands without a result (D17). -/
theorem Instr.answer_eq_none_iff (i : Instr) (W : Nat) (c : Bool) :
    i.answer W c = none ↔ i = .decl ∨ ∃ v, i = .setc v := by
  cases i <;> simp [Instr.answer]

end Sys2Proof

namespace Sys2Proof.Machine

/-- The bit of a carry read depends on the carry and the draw to come only. -/
theorem readCarry_bit_congr {s s' : State} (hcarry : s.carry = s'.carry) (hstream : s.drawStream = s'.drawStream)
    (hdraws : s.draws = s'.draws) : s.readCarry.1 = s'.readCarry.1 := by
  cases h : s.carry with
  | undef => rw [readCarry_of_undef h, readCarry_of_undef (hcarry ▸ h), hstream, hdraws]
  | defined b => rw [readCarry_of_defined h, readCarry_of_defined (hcarry ▸ h)]

/-- A command that reads no carry sets no PV and counts no draw. -/
theorem state_without_read (s : State) (carry : Carry) (resp : Response) :
    ({ s with carry := carry, responses := s.responses ++ [resp] } : State) = { s with
      carry := carry
      responses := s.responses ++ [resp]
      pv := s.pv || (s.cfg.debugPoison && (false && !s.carry.isDefined))
      draws := s.draws + (false && !s.carry.isDefined).toNat } := by
  simp

/-- Every command as a whole next state. -/
theorem exec_eq (i : Instr) (s : State) : exec i s = .next { s with
    carry := i.carryAfter s.cfg.W s.readCarry.1
    responses := s.responses ++ [i.answer s.cfg.W s.readCarry.1]
    pv := s.pv || (s.cfg.debugPoison && (i.consuming && !s.carry.isDefined))
    draws := s.draws + (i.consuming && !s.carry.isDefined).toNat } := by
  cases i with
  | decl => exact congrArg Host.Outcome.next (state_without_read s _ none)
  | setc v => exact congrArg Host.Outcome.next (state_without_read s _ none)
  | adds x y => exact congrArg Host.Outcome.next (state_without_read s _ (some _))
  | subs x y => exact congrArg Host.Outcome.next (state_without_read s _ (some _))
  | getc =>
    simp only [exec, execGetc, readCarry_state]
    rfl
  | addc x y => exact congrArg Host.Outcome.next (opConsuming_eq _ s)
  | subc x y => exact congrArg Host.Outcome.next (opConsuming_eq _ s)
  | addcs x y => exact congrArg Host.Outcome.next (opConsumingSetting_eq _ s)
  | subcs x y => exact congrArg Host.Outcome.next (opConsumingSetting_eq _ s)

/-- Every command completes. -/
theorem exists_exec_eq_next (i : Instr) (s : State) : ∃ t, exec i s = .next t := ⟨_, exec_eq i s⟩

/-- A command that finds the carry defined where it reads it neither draws nor touches PV: it answers for the bit read,
and for any bit when it reads none. -/
theorem exec_of_defined {i : Instr} {s : State} {b : Bool} (h : i.consuming = true → s.carry = .defined b) :
    exec i s = .next { s with
      carry := i.carryAfter s.cfg.W b
      responses := s.responses ++ [i.answer s.cfg.W b] } := by
  rw [exec_eq]
  cases hi : i.consuming with
  | false =>
    rw [Instr.answer_of_not_consuming hi _ _ b, Instr.carryAfter_of_not_consuming hi _ _ b, ← state_without_read]
  | true =>
    have hb := h hi
    simp [readCarry_bit s b hb, hb]

/-- DECL as a whole next state (R100). -/
theorem exec_decl_eq (s : State) :
    exec .decl s = .next { s with carry := .undef, responses := s.responses ++ [none] } := rfl

/-- SETC as a whole next state (R102). -/
theorem exec_setc_eq (v : Nat) (s : State) : exec (.setc v) s = .next { s with
    carry := .defined (decide (v ≠ 0)), responses := s.responses ++ [none] } := by
  have hbit : setcBit v = decide (v ≠ 0) := by
    rw [Bool.eq_iff_iff, setcBit, bne_iff_ne, decide_eq_true_iff]
  rw [← hbit]
  rfl

/-- Settles O14: DECL poisons the carry and responds with none. -/
theorem declMakesTheCarryUndefined : Obligations.DeclMakesTheCarryUndefined := exec_decl_eq

/-- Settles O15: the result of GETC is the bit of the carry read. -/
theorem getcReturnsAndConsumesTheCarry : Obligations.GetcReturnsAndConsumesTheCarry := by
  intro s
  refine ⟨s.readCarry.1, readCarry_bit s, ?_⟩
  rw [exec_eq]
  cases s.readCarry.1 <;> rfl

/-- Settles O16: SETC sets the carry to whether its operand is not zero. -/
theorem setcForcesTheCarry : Obligations.SetcForcesTheCarry := fun s v => exec_setc_eq v s

/-- Settles O23, from the one equation for all commands. -/
theorem everyCommandCompletesWithOneResponse : Obligations.EveryCommandCompletesWithOneResponse := fun i s =>
  ⟨_, _, exec_eq i s, rfl, rfl, rfl, rfl, i.answer_eq_none_iff _ _⟩

/-- Settles O25: the bit is the one the draw gave; on it as a defined carry the command draws nothing. -/
theorem undefinedCarryReadsAsOneDrawnBit : Obligations.UndefinedCarryReadsAsOneDrawnBit := by
  intro i s hi hcarry
  refine ⟨s.readCarry.1, _, exec_of_defined fun _ => rfl, ?_⟩
  rw [exec_eq, hi, hcarry]
  simp

/-- PV after a command (R28). -/
theorem pv_after_iff (i : Instr) (s : State) :
    (s.pv || (s.cfg.debugPoison && (i.consuming && !s.carry.isDefined))) = true ↔
      s.pv = true ∨ (s.cfg.debugPoison = true ∧ i.consuming = true ∧ s.carry = .undef) := by
  rw [← Carry.isDefined_eq_false_iff]
  simp

/-- `dbg_pv` shows PV where PV is 0 unless the build is a debug build. -/
theorem dbgPv_eq_pv {s : State} (hinv : s.Inv) : s.dbgPv = s.pv := by
  obtain ⟨-, hpv, -, -⟩ := hinv
  unfold State.dbgPv
  cases hdebug : s.cfg.debugPoison with
  | true => rfl
  | false => rw [hpv hdebug]; rfl

/-- A command on another build (`DEBUG_POISON`) and with another PV leaves the same state but for these two: the carry
read gives the same bit. -/
theorem exec_withDebugPoison_pv {i : Instr} {s t : State} (cfg : Config.Params) (p : Bool) (hW : cfg.W = s.cfg.W)
    (h : exec i s = .next t) :
    ∃ q, exec i { s with cfg := cfg, pv := p } = .next { t with cfg := cfg, pv := q } := by
  have hbit : ({ s with cfg := cfg, pv := p } : State).readCarry.1 = s.readCarry.1 := readCarry_bit_congr rfl rfl rfl
  rw [exec_eq] at h
  cases h
  rw [exec_eq, hbit, hW]
  exact ⟨_, rfl⟩

/-- Settles O26, from the one equation for all commands. -/
theorem pvIsStickyAndWithoutInfluence : Obligations.PvIsStickyAndWithoutInfluence := fun i s =>
  ⟨_, exec_eq i s, pv_after_iff i s, fun p => exec_withDebugPoison_pv s.cfg p rfl (exec_eq i s), dbgPv_eq_pv⟩

/-- No command changes the parameters. -/
theorem exec_cfg {i : Instr} {s t : State} (h : exec i s = .next t) : t.cfg = s.cfg := by
  obtain ⟨_, _, rfl, -, -⟩ := exec_inversion h
  rfl

/-- A step that answers a next state does so on the other build too, with the same state but for the two. -/
theorem step_withDebugPoison_pv {s t : State} (d p : Bool) (h : step s = .next t) :
    ∃ q, step { s with cfg := s.cfg.withDebugPoison d, pv := p }
      = .next { t with cfg := t.cfg.withDebugPoison d, pv := q } := by
  obtain ⟨hin, rfl⟩ | ⟨input, rest, hin, ⟨hrst, rfl⟩ | ⟨hrst, hcmd, rfl⟩ | ⟨cw, i, hrst, hcmd, hdec, hexec⟩⟩ :=
    step_inversion h
  · exact ⟨p, step_of_noInput hin⟩
  · exact ⟨false, step_of_rst hin hrst⟩
  · exact ⟨p, step_of_noCommand hin hrst hcmd⟩
  · obtain ⟨q, hq⟩ := exec_withDebugPoison_pv (s := { s with inputs := rest }) (s.cfg.withDebugPoison d) p rfl hexec
    refine ⟨q, ?_⟩
    rw [exec_cfg hexec, ← hq]
    exact step_of_decode_ok hin hrst hcmd hdec

/-- Settles O27: the input, the decoder and the carry read are the same on both builds. -/
theorem debugPoisonChangesOnlyPv : Obligations.DebugPoisonChangesOnlyPv := by
  refine fun s d p => ⟨fun t => step_withDebugPoison_pv d p, fun why h => ?_⟩
  obtain ⟨cw, rest, e, hin, hdec, rfl⟩ := step_refused_inversion h
  exact step_of_decode_error (input := ⟨false, some cw⟩) hin rfl rfl hdec

/-- Settles O28: the equation for all commands reads nothing else of the state. -/
theorem blockRemembersOnlyCarryAndPv : Obligations.BlockRemembersOnlyCarryAndPv := by
  intro i s s' hW hdebug hcarry hpv hstream hdraws
  have hbit := readCarry_bit_congr hcarry hstream hdraws
  refine ⟨_, _, _, exec_eq i s, exec_eq i s', rfl, ?_, ?_, ?_, ?_⟩
  · rw [hbit, hW]
  · rw [hbit, hW]
  · rw [hdebug, hcarry, hpv]
  · rw [hcarry, hdraws]

/-- Settles O29: the invariant says that PV is 0 where `DEBUG_POISON` is 0. -/
theorem resetDiffersFromDeclInPvOnly : Obligations.ResetDiffersFromDeclInPvOnly := fun s =>
  ⟨_, exec_decl_eq s, rfl, rfl, rfl, fun ⟨_, hpv, _, _⟩ => hpv⟩

/-- Settles O43: the second issue of a setting command that reads no carry meets the same operands, and the second GETC
meets the undefined carry of the first. -/
theorem settingWithoutReadingIsIdempotent : Obligations.SettingWithoutReadingIsIdempotent := by
  constructor
  · intro i s _ hi
    have hquiet (u : State) := exec_of_defined (i := i) (s := u) (b := false) fun h => absurd h (by simp [hi])
    exact ⟨_, _, hquiet s, rfl, hquiet _⟩
  · intro s t h
    have hcarry : t.carry = .undef := (exec_carry_eq_undef_iff h).mpr rfl
    obtain ⟨u, hu⟩ := exists_exec_eq_next .getc t
    refine ⟨u, hu, ?_⟩
    rw [exec_draws hu, hcarry]
    rfl

end Sys2Proof.Machine
end

section
/-! The laws of the word addition and subtraction and the three datapaths (`41_word_arithmetic.md` sections 3 and 4).
Result word and carry-out are the one pair that gives the exact value back; every law and every datapath is checked
against that. -/

namespace Sys2Proof.Machine

/-- Result word and carry-out give the exact sum back (R131). -/
theorem addWords_exact {W x y : Nat} (c : Bool) (hx : x < 2 ^ W) (hy : y < 2 ^ W) :
    x + y + c.toNat = (addWords W x y c).2.toNat * 2 ^ W + (addWords W x y c).1 := by
  have hc := c.toNat_le
  rw [addWords_fst, addWords_snd]
  by_cases hcarry : 2 ^ W ≤ x + y + c.toNat
  · rw [Nat.mod_eq_sub_mod hcarry, Nat.mod_eq_of_lt (by omega)]
    simp only [hcarry, decide_true, Bool.toNat_true]
    omega
  · rw [Nat.mod_eq_of_lt (not_le.mp hcarry)]
    simp [hcarry]

/-- Result word and borrow-out give the exact difference back (R131). -/
theorem subWords_exact {W x y : Nat} (c : Bool) (hx : x < 2 ^ W) (hy : y < 2 ^ W) :
    (x : Int) - y - c.toNat = (subWords W x y c).1 - (subWords W x y c).2.toNat * (2 ^ W : Nat) := by
  have hc := c.toNat_le
  rw [subWords_fst c hx hy, subWords_snd]
  by_cases hborrow : x < y + c.toNat
  · simp only [hborrow, if_true, decide_true, Bool.toNat_true]
    omega
  · simp only [hborrow, if_false, decide_false, Bool.toNat_false]
    omega

/-- A word and a bit that give the exact sum are the result word and the carry-out. -/
theorem addWords_eq_of_exact {W x y r : Nat} {c b : Bool} (hr : r < 2 ^ W)
    (h : x + y + c.toNat = b.toNat * 2 ^ W + r) : addWords W x y c = (r, b) := by
  refine Prod.ext ?_ ?_
  · rw [addWords_fst, h, Nat.mul_add_mod_self_right, Nat.mod_eq_of_lt hr]
  · rw [addWords_snd, h]
    cases b
    · simpa using hr
    · simp

/-- A word and a bit that give the exact difference are the result word and the borrow-out. -/
theorem subWords_eq_of_exact {W x y r : Nat} {c b : Bool} (hr : r < 2 ^ W)
    (h : (x : Int) - y - c.toNat = r - b.toNat * (2 ^ W : Nat)) : subWords W x y c = (r, b) := by
  refine Prod.ext ?_ ?_
  · refine modWord_eq_of_eq hr (-b.toNat) ?_
    rw [exactDiff, h]
    ring
  · rw [subWords_snd]
    cases b with
    | false =>
      rw [Bool.toNat_false] at h
      exact decide_eq_false (by omega)
    | true =>
      rw [Bool.toNat_true] at h
      exact decide_eq_true (by omega)

/-- Addition is symmetric in its operands. -/
theorem addWords_comm (W x y : Nat) (c : Bool) : addWords W x y c = addWords W y x c := by
  rw [addWords, addWords, exactSum, exactSum, Int.add_comm (x : Int)]

/-- Subtraction is the addition of the complement with the carry inverted going in and coming out. -/
theorem subWords_eq_addWords_complement {W x y : Nat} (c : Bool) (hx : x < 2 ^ W) (hy : y < 2 ^ W) :
    subWords W x y c
      = ((addWords W x (complementWord W y) (!c)).1, !(addWords W x (complementWord W y) (!c)).2) := by
  have hcomp : complementWord W y + (y + 1) = 2 ^ W := by
    unfold complementWord
    omega
  have hnot (b : Bool) : (!b).toNat + b.toNat = 1 := by cases b <;> rfl
  have hsum := addWords_exact (!c) hx (by omega : complementWord W y < 2 ^ W)
  have hword := addWords_fst_lt W x (complementWord W y) (!c)
  generalize addWords W x (complementWord W y) (!c) = sum at hsum hword ⊢
  obtain ⟨r, b⟩ := sum
  have hc := hnot c
  refine subWords_eq_of_exact hword ?_
  cases b <;> simp only [Bool.not_true, Bool.not_false, Bool.toNat_true, Bool.toNat_false] at hsum ⊢ <;> omega

/-- Without a carry-in the carry is 1 exactly when the result word is less than the first operand. -/
theorem addWords_carry_iff_lt {W x y : Nat} (hx : x < 2 ^ W) (hy : y < 2 ^ W) :
    (addWords W x y false).2 = decide ((addWords W x y false).1 < x) := by
  have hsum := addWords_exact false hx hy
  have hword := addWords_fst_lt W x y false
  rw [Bool.toNat_false, Nat.add_zero] at hsum
  generalize addWords W x y false = sum at hsum hword ⊢
  obtain ⟨r, b⟩ := sum
  cases b with
  | false =>
    rw [Bool.toNat_false] at hsum
    exact (decide_eq_false (by omega)).symm
  | true =>
    rw [Bool.toNat_true] at hsum
    exact (decide_eq_true (by omega)).symm

/-- Without a borrow-in the borrow is 1 exactly when the result word is more than the first operand. -/
theorem subWords_borrow_iff_gt {W x y : Nat} (hx : x < 2 ^ W) (hy : y < 2 ^ W) :
    (subWords W x y false).2 = decide ((subWords W x y false).1 > x) := by
  rw [subWords_snd, subWords_fst false hx hy, decide_eq_decide, Bool.toNat_false]
  split <;> omega

/-- With a carry-in or borrow-in the two short tests fail: for `x = 0`, `y = 2^W - 1` and 1 coming in, the word is 0 and
the carry 1. -/
theorem words_zero_max_true (W : Nat) :
    addWords W 0 (2 ^ W - 1) true = (0, true) ∧ subWords W 0 (2 ^ W - 1) true = (0, true) := by
  have hpos := Nat.two_pow_pos W
  refine ⟨addWords_eq_of_exact hpos ?_, subWords_eq_of_exact hpos ?_⟩
  · simp only [Bool.toNat_true]
    omega
  · simp only [Bool.toNat_true]
    omega

/-- On carry 0 the consuming and setting commands do what the setting ones do. -/
theorem exec_consumingSetting_of_zero {s : State} (x y : Nat) (h : s.carry = .defined false) :
    exec (.addcs x y) s = exec (.adds x y) s ∧ exec (.subcs x y) s = exec (.subs x y) s := by
  have hquiet (i : Instr) := exec_of_defined (i := i) (s := s) (b := false) fun _ => h
  exact ⟨by rw [hquiet, hquiet]; rfl, by rw [hquiet, hquiet]; rfl⟩

/-- Settles O30, from the exact values of the two word functions. -/
theorem carryOutAndResultRecoverTheExactValue : Obligations.CarryOutAndResultRecoverTheExactValue := by
  intro s x y c hx hy hcarry
  have hquiet (i : Instr) := exec_of_defined (i := i) (s := s) (b := c) fun _ => hcarry
  have hsub (b : Bool) : (x : Int) - y - b.toNat
      = (subWords s.cfg.W x y b).1 - (subWords s.cfg.W x y b).2.toNat * 2 ^ s.cfg.W := by
    exact_mod_cast subWords_exact b hx hy
  have hadds := addWords_exact false hx hy
  have hsubs := hsub false
  simp only [Bool.toNat_false, Nat.add_zero, Nat.cast_zero, Int.sub_zero] at hadds hsubs
  exact ⟨⟨_, _, addWords_fst_lt .., addWords_exact c hx hy, hquiet _⟩, ⟨_, _, subWords_fst_lt .., hsub c, hquiet _⟩,
    ⟨_, _, addWords_fst_lt .., hadds, hquiet _⟩, ⟨_, _, subWords_fst_lt .., hsubs, hquiet _⟩⟩

/-- Settles O31, law by law. -/
theorem additionAndSubtractionLaws : Obligations.AdditionAndSubtractionLaws := by
  intro W x y c _ hx hy
  obtain ⟨haddMax, hsubMax⟩ := words_zero_max_true W
  have hcomplement := subWords_eq_addWords_complement c hx hy
  refine ⟨addWords_comm W x y c, fun h => ?_, addWords_eq_of_exact hx (by simp), subWords_eq_of_exact hx (by simp),
    subWords_eq_of_exact (Nat.two_pow_pos W) (by simp), fun s _ => exec_consumingSetting_of_zero x y,
    by rw [hcomplement], by rw [hcomplement], addWords_carry_iff_lt hx hy,
    subWords_borrow_iff_gt hx hy, by simp [haddMax], by simp [hsubMax]⟩
  have hxy := subWords_exact c hx hy
  have hyx := subWords_exact c hy hx
  rw [← h] at hyx
  omega

/-! ### The datapaths -/

/-- A full adder adds its three bits exactly (R138). -/
theorem fullAdder_exact (x y k : Bool) :
    (sumBit x y k).toNat + 2 * (carryBit x y k).toNat = x.toNat + y.toNat + k.toNat := by
  revert x y k
  decide

/-- A number is twice its half and its low bit. -/
theorem two_mul_half_add_lowBit (x : Nat) : 2 * (x / 2) + (x.testBit 0).toNat = x := by
  rw [Nat.toNat_testBit, pow_zero, Nat.div_one, Nat.div_add_mod]

/-- The ripple adder is exact: the low bits by the full adder, the high bits by induction. -/
theorem rippleAdder_exact {W x y : Nat} (k : Bool) (hx : x < 2 ^ W) (hy : y < 2 ^ W) :
    (rippleAdder W x y k).1 < 2 ^ W
      ∧ (rippleAdder W x y k).1 + (rippleAdder W x y k).2.toNat * 2 ^ W = x + y + k.toNat := by
  induction W generalizing x y k with
  | zero =>
    obtain rfl : x = 0 := by simpa using hx
    obtain rfl : y = 0 := by simpa using hy
    simp [rippleAdder]
  | succ n ih =>
    rw [pow_succ] at hx hy
    have hlow := fullAdder_exact (x.testBit 0) (y.testBit 0) k
    obtain ⟨hlt, hhigh⟩ := ih (x := x / 2) (y := y / 2) (carryBit (x.testBit 0) (y.testBit 0) k) (by omega) (by omega)
    have hxbits := two_mul_half_add_lowBit x
    have hybits := two_mul_half_add_lowBit y
    have hsumBit := (sumBit (x.testBit 0) (y.testBit 0) k).toNat_le
    rw [rippleAdder, pow_succ, ← Nat.mul_assoc]
    constructor
    · dsimp only
      omega
    · dsimp only
      omega

/-- Settles O32: the ripple adder is exact at every width. -/
theorem rippleAdderIsExact : Obligations.RippleAdderIsExact := fun _ _ _ k => rippleAdder_exact k

/-- The native addition is the architectural one. -/
theorem nativeAdd_eq {W x y : Nat} (c : Bool) (hx : x < 2 ^ W) (hy : y < 2 ^ W) :
    nativeAdd W x y c = addWords W x y c := by
  obtain ⟨hlt, hexact⟩ := rippleAdder_exact c hx hy
  exact (addWords_eq_of_exact hlt (by rw [← hexact, Nat.add_comm])).symm

/-- A complemented word fits its width. -/
theorem complementWord_lt (W y : Nat) : complementWord W y < 2 ^ W := by
  have hpos := Nat.two_pow_pos W
  unfold complementWord
  omega

/-- The native subtraction is the architectural one. -/
theorem nativeSub_eq {W x y : Nat} (c : Bool) (hx : x < 2 ^ W) (hy : y < 2 ^ W) :
    nativeSub W x y c = subWords W x y c := by
  rw [subWords_eq_addWords_complement c hx hy, ← nativeAdd_eq (!c) hx (complementWord_lt W y)]
  rfl

/-- Settles O34: the ripple adder, and it on the complement. -/
theorem nativeDatapathIsArchitectural : Obligations.NativeDatapathIsArchitectural := fun _ _ _ c hx hy =>
  ⟨nativeAdd_eq c hx hy, nativeSub_eq c hx hy⟩

/-- What is read off the scratch when the value put in it is `high * 2^W + r` modulo `2^SW` (R132). -/
theorem scratchOutputs_modWord {W SW high r : Nat} {a : Int} (k : Int) (hW : 1 ≤ W) (hSW : W + 1 ≤ SW)
    (hr : r < 2 ^ W) (hhigh : high < 2 ^ (SW - W)) (ha : a = (high * 2 ^ W + r : Nat) + k * (2 ^ SW : Nat)) :
    scratchOutputs W SW (modWord SW a) = (r, high != 0) := by
  have hfits : high * 2 ^ W + r < 2 ^ SW := by
    calc high * 2 ^ W + r < (high + 1) * 2 ^ W := by rw [Nat.add_mul, Nat.one_mul]; exact Nat.add_lt_add_left hr _
      _ ≤ 2 ^ (SW - W) * 2 ^ W := Nat.mul_le_mul_right _ hhigh
      _ = 2 ^ SW := by rw [← pow_add, Nat.sub_add_cancel (by omega)]
  have hlow : slice (W - 1) 0 (high * 2 ^ W + r) = r := by
    rw [slice, pow_zero, Nat.div_one, Nat.sub_zero, Nat.sub_add_cancel hW, Nat.mul_add_mod_self_right,
      Nat.mod_eq_of_lt hr]
  have htop : slice (SW - 1) W (high * 2 ^ W + r) = high := by
    rw [slice, show SW - 1 - W + 1 = SW - W by omega, Nat.add_comm, Nat.add_mul_div_right _ _ (Nat.two_pow_pos W),
      Nat.div_eq_of_lt hr, Nat.zero_add, Nat.mod_eq_of_lt hhigh]
  rw [modWord_eq_of_eq hfits k ha, scratchOutputs, hlow, htop]

section Portable

variable {W SW x y : Nat} (hW : 1 ≤ W) (hSW : 2 * W ≤ SW) (hx : x < 2 ^ W) (hy : y < 2 ^ W)
include hW hSW

/-- The scratch has at least one bit above the word. -/
theorem two_le_two_pow_scratch_high : 2 ≤ 2 ^ (SW - W) :=
  Nat.pow_le_pow_right (n := 2) (by norm_num) (by omega : 1 ≤ SW - W)

include hx hy

/-- The portable addition is the architectural one: the scratch holds the exact sum, the carry in the bits above. -/
theorem portableAdd_eq (c : Bool) : portableAdd W SW x y c = addWords W x y c := by
  have hroom := two_le_two_pow_scratch_high hW hSW
  have hsum := addWords_exact c hx hy
  have hword := addWords_fst_lt W x y c
  generalize addWords W x y c = sum at hsum hword ⊢
  obtain ⟨r, b⟩ := sum
  dsimp only at hsum
  have hbit : (b.toNat != 0) = b := by cases b <;> rfl
  have hb := b.toNat_le
  have hscratch := scratchOutputs_modWord (SW := SW) (high := b.toNat) (a := exactSum x y c) 0 hW (by omega) hword
    (by omega) (by unfold exactSum; omega)
  rw [portableAdd, hscratch, hbit]

/-- The portable subtraction is the architectural one: on a borrow the scratch wraps, which sets all bits above the
word. -/
theorem portableSub_eq (c : Bool) : portableSub W SW x y c = subWords W x y c := by
  have hroom := two_le_two_pow_scratch_high hW hSW
  have hdiff := subWords_exact c hx hy
  have hword := subWords_fst_lt W x y c
  generalize subWords W x y c = diff at hdiff hword ⊢
  obtain ⟨r, b⟩ := diff
  cases b with
  | false =>
    exact scratchOutputs_modWord (high := 0) 0 hW (by omega) hword (by omega) (by
      simp only [Bool.toNat_false] at hdiff
      unfold exactDiff
      omega)
  | true =>
    obtain ⟨high, hhigh⟩ := Nat.exists_eq_add_of_le' (Nat.two_pow_pos (SW - W))
    have hwrap : 2 ^ SW = high * 2 ^ W + 2 ^ W := by
      rw [← Nat.succ_mul, Nat.succ_eq_add_one, ← hhigh, ← pow_add, Nat.sub_add_cancel (by omega)]
    have hbit : (high != 0) = true := bne_iff_ne.mpr (by omega)
    have hscratch := scratchOutputs_modWord (SW := SW) (high := high) (a := exactDiff x y c) (-1) hW (by omega) hword
      (by omega) (by
        simp only [Bool.toNat_true] at hdiff
        unfold exactDiff
        omega)
    rw [portableSub, hscratch, hbit]

end Portable

/-- Settles O33: both directions of the portable datapath, for every legal scratch width. -/
theorem portableDatapathIsArchitectural : Obligations.PortableDatapathIsArchitectural :=
  fun _ _ _ _ c hW hSW hx hy => ⟨portableAdd_eq hW hSW hx hy c, portableSub_eq hW hSW hx hy c⟩

/-- The datapath of a legal build adds architecturally, whatever carry comes in. -/
theorem builtAdd_eq {p : Config.Params} {x y : Nat} (hW : 1 ≤ p.W) (hSW : 2 * p.W ≤ p.SW) (hx : x < 2 ^ p.W)
    (hy : y < 2 ^ p.W) : builtAdd p x y = addWords p.W x y := by
  funext c
  unfold builtAdd
  cases p.strategy with
  | portable => exact portableAdd_eq hW hSW hx hy c
  | native => exact nativeAdd_eq c hx hy

/-- The datapath of a legal build subtracts architecturally, whatever borrow comes in. -/
theorem builtSub_eq {p : Config.Params} {x y : Nat} (hW : 1 ≤ p.W) (hSW : 2 * p.W ≤ p.SW) (hx : x < 2 ^ p.W)
    (hy : y < 2 ^ p.W) : builtSub p x y = subWords p.W x y := by
  funext c
  unfold builtSub
  cases p.strategy with
  | portable => exact portableSub_eq hW hSW hx hy c
  | native => exact nativeSub_eq c hx hy

/-- A legal build performs every well-formed command on its own datapath as the architectural rule does. -/
theorem execBuilt_eq_exec {i : Instr} {s : State} (hW : 1 ≤ s.cfg.W) (hSW : 2 * s.cfg.W ≤ s.cfg.SW)
    (hwf : i.wf s.cfg.W = true) : execBuilt i s = exec i s := by
  obtain ⟨hx, hy⟩ := (i.wf_iff s.cfg.W).mp hwf
  have hadd := builtAdd_eq hW hSW hx hy
  have hsub := builtSub_eq hW hSW hx hy
  cases i with
  | decl | getc | setc v => rfl
  | adds x y | addc x y | addcs x y =>
    rw [Instr.xOperand, Instr.yOperand] at hadd
    rw [execBuilt, hadd]
    rfl
  | subs x y | subc x y | subcs x y =>
    rw [Instr.xOperand, Instr.yOperand] at hsub
    rw [execBuilt, hsub]
    rfl

/-- Settles O35: the build's datapath is the architectural rule, which reads neither `STRATEGY` nor `SW`. -/
theorem everyDatapathPerformsTheSameCommands : Obligations.EveryDatapathPerformsTheSameCommands := by
  intro i s strategy SW hW hSW hwf
  refine ⟨_, exec_eq i s, ?_⟩
  have hbit : ({ s with cfg := s.cfg.withDatapath strategy SW } : State).readCarry.1 = s.readCarry.1 :=
    readCarry_bit_congr rfl rfl rfl
  rw [execBuilt_eq_exec (s := { s with cfg := s.cfg.withDatapath strategy SW }) hW hSW hwf, exec_eq, hbit]
  rfl

end Sys2Proof.Machine
end

section
/-! Runs, command lists and conforming lists (`20_memory.md` section 2, `70_reset_and_hazards.md` section 2). -/

namespace Sys2Proof

/-- What a command leaves is defined exactly when the command is a setting one (R25). -/
theorem Instr.isDefined_carryAfter (W : Nat) (c : Bool) (i : Instr) :
    (i.carryAfter W c).isDefined = i.setting := by
  cases i <;> rfl

end Sys2Proof

namespace Sys2Proof.Machine

/-- A run goes on from the state its first step leaves. -/
theorem run_succ {k : Nat} {s t : State} (h : step s = .next t) : run (k + 1) s = run k t := by
  simp only [run, h]

/-- A run whose first step is refused ends there (R70). -/
theorem run_succ_of_refused {k : Nat} {s : State} {why : Refusal} (h : step s = .refused why) :
    run (k + 1) s = .refused why := by
  simp only [run, h]

/-- A step on a command word that decodes performs the command in the state that has taken it. -/
theorem step_of_command_word {s t : State} {cw : Nat} {i : Instr} {rest : List HostInput}
    (hdec : decode s.cfg.W cw = .ok i) (h : exec i { s with inputs := rest } = .next t) :
    step { s with inputs := HostInput.command cw :: rest } = .next t :=
  (step_of_decode_ok (s := { s with inputs := HostInput.command cw :: rest }) rfl rfl rfl hdec).trans h

/-- A run over presented words performs their commands: each word decodes to its command, which takes no input. -/
theorem run_encoded {is : List Instr} {s : State} (hW : 1 ≤ s.cfg.W) (hwf : ∀ i ∈ is, i.wf s.cfg.W = true) :
    run is.length { s with inputs := is.map (fun i => HostInput.command (encode s.cfg.W i)) ++ s.inputs }
      = execList is s := by
  induction is generalizing s with
  | nil => rfl
  | cons i is ih =>
    obtain ⟨t, ht⟩ := exists_exec_eq_next i s
    have hcfg := exec_cfg ht
    have hinputs : is.map (fun j => HostInput.command (encode t.cfg.W j)) ++ t.inputs
        = is.map (fun j => HostInput.command (encode s.cfg.W j)) ++ s.inputs := by rw [hcfg, exec_inputs ht]
    have hrest := ih (hcfg ▸ hW) fun j hj => hcfg ▸ hwf j (List.mem_cons_of_mem i hj)
    rw [execList_cons ht, ← hrest, hinputs]
    exact run_succ (step_of_command_word (decode_encode hW (hwf i List.mem_cons_self)) (exec_withInputs _ ht))

/-- Settles O36, from the run over presented words. -/
theorem runPerformsTheListInOrder : Obligations.RunPerformsTheListInOrder := fun s _ rest hW hwf =>
  run_encoded (s := { s with inputs := rest }) hW hwf

/-- A bit that both of two carries have where the command reads one. -/
theorem exists_common_bit {i : Instr} {c c' : Carry} (hdef : (!i.consuming || c.isDefined) = true)
    (hread : i.consuming = true → c = c') :
    ∃ b, (i.consuming = true → c = .defined b) ∧ (i.consuming = true → c' = .defined b) := by
  cases hi : i.consuming with
  | false => exact ⟨false, nofun, nofun⟩
  | true =>
    obtain rfl := hread hi
    cases c with
    | undef => rw [hi] at hdef; cases hdef
    | defined b => exact ⟨b, fun _ => rfl, fun _ => rfl⟩

/-- What a conforming list does from two states with the same width: the same responses, the same carry from the first
command on, and nothing else (R237). -/
theorem execList_of_conforming {is : List Instr} {s s' : State} (hW : s.cfg.W = s'.cfg.W)
    (hconf : conforming s.carry.isDefined is = true) (hconf' : conforming s'.carry.isDefined is = true)
    (hread : ∀ i rest, is = i :: rest → i.consuming = true → s.carry = s'.carry) :
    ∃ (rs : List Response) (c c' : Carry), rs.length = is.length
      ∧ execList is s = .next { s with carry := c, responses := s.responses ++ rs }
      ∧ execList is s' = .next { s' with carry := c', responses := s'.responses ++ rs }
      ∧ (is ≠ [] ∨ s.carry = s'.carry → c = c') := by
  induction is generalizing s s' with
  | nil => exact ⟨[], s.carry, s'.carry, rfl, by simp [execList], by simp [execList], by simp⟩
  | cons i is ih =>
    obtain ⟨hhead, htail⟩ := (Bool.and_eq_true _ _).mp hconf
    obtain ⟨b, hb, hb'⟩ := exists_common_bit hhead (hread i is rfl)
    have ht := exec_of_defined hb
    have ht' := exec_of_defined hb'
    rw [← hW] at ht'
    rw [← i.isDefined_carryAfter s.cfg.W b] at htail
    obtain ⟨rs, c, c', hlen, hlist, hlist', hsame⟩ := ih
      (s := { s with carry := i.carryAfter s.cfg.W b, responses := s.responses ++ [i.answer s.cfg.W b] })
      (s' := { s' with carry := i.carryAfter s.cfg.W b, responses := s'.responses ++ [i.answer s.cfg.W b] })
      hW htail htail fun _ _ _ _ => rfl
    refine ⟨i.answer s.cfg.W b :: rs, c, c', congrArg Nat.succ hlen, ?_, ?_, fun _ => hsame (.inr rfl)⟩
    · rw [execList_cons ht, hlist, List.append_assoc, List.singleton_append]
    · rw [execList_cons ht', hlist', List.append_assoc, List.singleton_append]

/-- Settles O45, from what a conforming list does from two states. -/
theorem conformingListsAreDeterministic : Obligations.ConformingListsAreDeterministic := by
  intro is s s' hW hconf hconf' hread
  obtain ⟨rs, c, c', hlen, hlist, hlist', hsame⟩ := execList_of_conforming hW hconf hconf' hread
  exact ⟨rs, c, c', hlen, hlist, hlist', fun hne => hsame (.inl hne)⟩

/-- Settles O42: GETC leaves an undefined carry, from which the host's own list conforms, and SETC of the word GETC gave
defines it as before. -/
theorem getcSetcBracketRestoresTheCarry : Obligations.GetcSetcBracketRestoresTheCarry := by
  intro s c own hcarry hconf
  have hgetc := exec_of_defined (i := .getc) fun _ => hcarry
  obtain ⟨mid, c', -, hlen, hown, -, -⟩ := execList_of_conforming
    (s := { s with carry := .undef, responses := s.responses ++ [some c.toNat] }) rfl hconf hconf fun _ _ _ _ => rfl
  have hbit : decide (c.toNat ≠ 0) = c := by cases c <;> rfl
  refine ⟨mid, hlen, ?_⟩
  rw [execList_cons hgetc]
  refine (execList_append hown).trans ((execList_cons (exec_setc_eq _ _)).trans ?_)
  rw [hbit, ← hcarry]
  simp [execList]

/-- A step makes draws or makes none; it takes none back. -/
theorem step_draws_le {s t : State} (h : step s = .next t) : s.draws ≤ t.draws := by
  obtain ⟨-, rfl⟩ | ⟨input, rest, -, ⟨-, rfl⟩ | ⟨-, -, rfl⟩ | ⟨cw, i, -, -, -, hexec⟩⟩ := step_inversion h
  · exact le_rfl
  · exact le_rfl
  · exact le_rfl
  · rw [exec_draws hexec]
    exact Nat.le_add_right ..

/-- A run takes no draw back. -/
theorem run_draws_le {k : Nat} {s t : State} (h : run k s = .next t) : s.draws ≤ t.draws := by
  induction k generalizing s with
  | zero => cases h; exact le_rfl
  | succ k ih =>
    cases hstep : step s with
    | next u => exact (step_draws_le hstep).trans (ih (run_succ hstep ▸ h))
    | fault f => exact nomatch f
    | refused why => rw [run_succ_of_refused hstep] at h; cases h

/-- Settles O44, by induction on the list: a reserved opcode ends the run, and the head draws exactly when it reads an
undefined carry. -/
theorem conformingIsExactlyNoDraw : Obligations.ConformingIsExactlyNoDraw := by
  intro s cws rest hin
  induction cws generalizing s with
  | nil => exact ⟨fun _ => ⟨s, rfl, rfl⟩, fun _ => rfl⟩
  | cons cw cws ih =>
    cases hdec : decode s.cfg.W cw with
    | error e =>
      have hrun := run_succ_of_refused (k := cws.length) (step_of_decode_error hin rfl rfl hdec)
      simp [conformingWords, hdec, hrun]
    | ok i =>
      obtain ⟨u, hu⟩ := exists_exec_eq_next i { s with inputs := cws.map HostInput.command ++ rest }
      have hstep := (step_of_decode_ok hin rfl rfl hdec).trans hu
      have hdraws : u.draws = s.draws + (i.consuming && !s.carry.isDefined).toNat := (exec_draws hu :)
      have hhead : (!i.consuming || s.carry.isDefined) = !(i.consuming && !s.carry.isDefined) := by
        rw [Bool.not_and, Bool.not_not]
      have htail := ih u (exec_inputs hu)
      rw [exec_cfg hu, exec_carry_isDefined hu] at htail
      simp only [conformingWords, hdec, Bool.and_eq_true, htail, List.length_cons, run_succ hstep, hhead]
      cases hdraw : (i.consuming && !s.carry.isDefined) with
      | false =>
        rw [hdraw] at hdraws
        simp [hdraws]
      | true =>
        rw [hdraw, Bool.toNat_true] at hdraws
        refine ⟨fun h => absurd h.1 Bool.false_ne_true, ?_⟩
        rintro ⟨t, ht, hnone⟩
        have hle := run_draws_le ht
        omega

/-- Everything a platform step that answers a next platform does. -/
theorem platformStep_eq_next_iff {n : Nat} {k : Fin n} {p q : Vector State n} :
    platformStep k p = .next q ↔ ∃ t, step p[k] = .next t ∧ q = p.set k t := by
  unfold platformStep
  cases step p[k] <;> simp [eq_comm]

/-- Settles O46: a platform step replaces one component of the vector. -/
theorem instancesAreIndependent : Obligations.InstancesAreIndependent := by
  intro n j k p p' p'' hjk hj hk
  obtain ⟨t, ht, rfl⟩ := platformStep_eq_next_iff.mp hj
  obtain ⟨u, hu, rfl⟩ := platformStep_eq_next_iff.mp hk
  have hne : j.val ≠ k.val := Fin.val_ne_of_ne hjk
  have hpk : (p.set j t)[k] = p[k] := Vector.getElem_set_ne j.isLt k.isLt hne
  have hpj : (p.set k u)[j] = p[j] := Vector.getElem_set_ne k.isLt j.isLt hne.symm
  refine ⟨hpk, hpj, (p.set j t).set k u, ?_, ?_⟩
  · exact platformStep_eq_next_iff.mpr ⟨u, hpk ▸ hu, rfl⟩
  · exact platformStep_eq_next_iff.mpr ⟨t, hpj ▸ ht, Vector.set_comm _ _ hne⟩

end Sys2Proof.Machine
end

section
/-! The multi-word chains (`42_multiword_chain.md`): what a chain of one word function over the words of two numbers
gives, the value of its words, and that the commands of a chain perform it. -/

namespace Sys2Proof.Machine

/-- A word function chained over the pairs `(X_i, Y_i)`, word 0 first, each carry-out the carry-in of the next: the
result words and the final carry (R160). -/
def chainWords (f : Nat → Nat → Bool → Nat × Bool) : Bool → List (Nat × Nat) → List Nat × Bool
  | c, [] => ([], c)
  | c, (x, y) :: ps =>
    let high := chainWords f (f x y c).2 ps
    ((f x y c).1 :: high.1, high.2)

/-- A chain gives one word for each pair. -/
theorem chainWords_length (f : Nat → Nat → Bool → Nat × Bool) (c : Bool) (ps : List (Nat × Nat)) :
    (chainWords f c ps).1.length = ps.length := by
  induction ps generalizing c with
  | nil => rfl
  | cons p ps ih => exact congrArg Nat.succ (ih _)

/-- The words of a chain fit when the words of its function do. -/
theorem chainWords_lt {f : Nat → Nat → Bool → Nat × Bool} {m : Nat} (hf : ∀ x y c, (f x y c).1 < m) (c : Bool)
    (ps : List (Nat × Nat)) : ∀ r ∈ (chainWords f c ps).1, r < m := by
  induction ps generalizing c with
  | nil => exact fun _ h => absurd h List.not_mem_nil
  | cons p ps ih => exact List.forall_mem_cons.mpr ⟨hf p.1 p.2 c, ih _⟩

/-- A multi-word number of `N` words of `W` bits is less than `2^(N*W)`. -/
theorem multiWord_lt {W : Nat} {ws : List Nat} (h : ∀ w ∈ ws, w < 2 ^ W) : multiWord W ws < 2 ^ (ws.length * W) := by
  induction ws with
  | nil => simp [multiWord]
  | cons w ws ih =>
    obtain ⟨hw, hws⟩ := List.forall_mem_cons.mp h
    calc multiWord W (w :: ws) < 2 ^ W * (multiWord W ws + 1) := by
          rw [multiWord, Nat.mul_add, Nat.mul_one, Nat.add_comm]
          exact Nat.add_lt_add_left hw _
      _ ≤ 2 ^ W * 2 ^ (ws.length * W) := Nat.mul_le_mul_left _ (ih hws)
      _ = 2 ^ ((w :: ws).length * W) := by rw [← pow_add, List.length_cons, Nat.succ_mul, Nat.add_comm]

/-! ### The value of a chain -/

section Value

variable {W : Nat} {ps : List (Nat × Nat)} (hfits : ∀ p ∈ ps, p.1 < 2 ^ W ∧ p.2 < 2 ^ W)
include hfits

/-- The words and the final carry of an addition chain give the exact sum back. -/
theorem chainWords_add_exact (c : Bool) :
    multiWord W (ps.map Prod.fst) + multiWord W (ps.map Prod.snd) + c.toNat
      = (chainWords (addWords W) c ps).2.toNat * 2 ^ (ps.length * W)
        + multiWord W (chainWords (addWords W) c ps).1 := by
  induction ps generalizing c with
  | nil => simp [chainWords, multiWord]
  | cons p ps ih =>
    obtain ⟨hp, hps⟩ := List.forall_mem_cons.mp hfits
    have hword := addWords_exact c hp.1 hp.2
    have hrest := ih hps (addWords W p.1 p.2 c).2
    simp only [List.map_cons, multiWord, chainWords, List.length_cons, Nat.succ_mul, pow_add]
    linear_combination hword + 2 ^ W * hrest

/-- The words and the final borrow of a subtraction chain give the exact difference back. -/
theorem chainWords_sub_exact (c : Bool) :
    (multiWord W (ps.map Prod.fst) : Int) - multiWord W (ps.map Prod.snd) - c.toNat
      = multiWord W (chainWords (subWords W) c ps).1
        - (chainWords (subWords W) c ps).2.toNat * (2 ^ (ps.length * W) : Nat) := by
  induction ps generalizing c with
  | nil => simp [chainWords, multiWord]
  | cons p ps ih =>
    obtain ⟨hp, hps⟩ := List.forall_mem_cons.mp hfits
    have hword := subWords_exact c hp.1 hp.2
    have hrest := ih hps (subWords W p.1 p.2 c).2
    simp only [List.map_cons, multiWord, chainWords, List.length_cons, Nat.succ_mul, pow_add]
    push_cast at hword hrest ⊢
    linear_combination hword + 2 ^ W * hrest

/-- An addition chain over `N` words is one addition of width `N*W` (R160, R162). -/
theorem addWords_multiWord (c : Bool) :
    addWords (ps.length * W) (multiWord W (ps.map Prod.fst)) (multiWord W (ps.map Prod.snd)) c
      = (multiWord W (chainWords (addWords W) c ps).1, (chainWords (addWords W) c ps).2) := by
  have hlt := multiWord_lt (chainWords_lt (addWords_fst_lt W) c ps)
  rw [chainWords_length] at hlt
  exact addWords_eq_of_exact hlt (chainWords_add_exact hfits c)

/-- A subtraction chain over `N` words is one subtraction of width `N*W` (R160, R164). -/
theorem subWords_multiWord (c : Bool) :
    subWords (ps.length * W) (multiWord W (ps.map Prod.fst)) (multiWord W (ps.map Prod.snd)) c
      = (multiWord W (chainWords (subWords W) c ps).1, (chainWords (subWords W) c ps).2) := by
  have hlt := multiWord_lt (chainWords_lt (subWords_fst_lt W) c ps)
  rw [chainWords_length] at hlt
  exact subWords_eq_of_exact hlt (chainWords_sub_exact hfits c)

/-- The words of an addition chain: the sum modulo `2^(N*W)`. -/
theorem multiWord_add (c : Bool) : multiWord W (chainWords (addWords W) c ps).1
    = (multiWord W (ps.map Prod.fst) + multiWord W (ps.map Prod.snd) + c.toNat) % 2 ^ (ps.length * W) := by
  rw [← addWords_fst, addWords_multiWord hfits]

/-- The final carry of an addition chain: the sum does not fit. -/
theorem chainWords_add_carry (c : Bool) : (chainWords (addWords W) c ps).2
    = decide (2 ^ (ps.length * W) ≤ multiWord W (ps.map Prod.fst) + multiWord W (ps.map Prod.snd) + c.toNat) := by
  rw [← addWords_snd, addWords_multiWord hfits]

/-- The words of a subtraction chain: the difference modulo `2^(N*W)`. -/
theorem multiWord_sub (c : Bool) : (multiWord W (chainWords (subWords W) c ps).1 : Int)
    = ((multiWord W (ps.map Prod.fst) : Int) - multiWord W (ps.map Prod.snd) - c.toNat)
      % (2 ^ (ps.length * W) : Nat) := by
  have hword := congrArg Prod.fst (subWords_multiWord hfits c)
  dsimp only at hword
  rw [← hword]
  exact Int.toNat_of_nonneg (Int.emod_nonneg _ (by exact_mod_cast (Nat.two_pow_pos _).ne'))

/-- The words of a subtraction chain without a borrow-in. -/
theorem multiWord_sub_noBorrow : (multiWord W (chainWords (subWords W) false ps).1 : Int)
    = ((multiWord W (ps.map Prod.fst) : Int) - multiWord W (ps.map Prod.snd)) % (2 ^ (ps.length * W) : Nat) := by
  rw [multiWord_sub hfits, Bool.toNat_false, Nat.cast_zero, Int.sub_zero]

/-- The final borrow of a subtraction chain: the difference is negative. -/
theorem chainWords_sub_borrow (c : Bool) : (chainWords (subWords W) c ps).2
    = decide (multiWord W (ps.map Prod.fst) < multiWord W (ps.map Prod.snd) + c.toNat) := by
  rw [← subWords_snd (ps.length * W), subWords_multiWord hfits]

/-- Adding the complemented words with the inverted carry is the subtraction chain, with the inverted borrow (R168). -/
theorem chainWords_complement (c : Bool) :
    chainWords (addWords W) (!c) (ps.map fun p => (p.1, complementWord W p.2))
      = ((chainWords (subWords W) c ps).1, !(chainWords (subWords W) c ps).2) := by
  induction ps generalizing c with
  | nil => rfl
  | cons p ps ih =>
    obtain ⟨hp, hps⟩ := List.forall_mem_cons.mp hfits
    have hrest := ih hps (subWords W p.1 p.2 c).2
    have hword := subWords_eq_addWords_complement c hp.1 hp.2
    have hcarry : (addWords W p.1 (complementWord W p.2) (!c)).2 = !(subWords W p.1 p.2 c).2 := by
      rw [hword, Bool.not_not]
    rw [List.map_cons, chainWords, chainWords, hcarry, hrest, hword]

end Value

/-! ### The commands of a chain -/

/-- The consuming addition, by whether its carry-out is kept. -/
def consumingAdd (keep : Bool) (x y : Nat) : Instr :=
  if keep then .addcs x y else .addc x y

/-- The consuming subtraction, by whether its borrow-out is kept. -/
def consumingSub (keep : Bool) (x y : Nat) : Instr :=
  if keep then .subcs x y else .subc x y

/-- The commands `op keep x y` give the words of `f`, and its carry when `keep` says so. -/
def PerformsWords (W : Nat) (f : Nat → Nat → Bool → Nat × Bool) (op : Bool → Nat → Nat → Instr) : Prop :=
  ∀ keep x y c, (op keep x y).answer W c = some (f x y c).1
    ∧ (op keep x y).carryAfter W c = if keep then .defined (f x y c).2 else .undef

theorem consumingAdd_performsWords (W : Nat) : PerformsWords W (addWords W) consumingAdd := by
  intro keep x y c
  cases keep <;> exact ⟨rfl, rfl⟩

theorem consumingSub_performsWords (W : Nat) : PerformsWords W (subWords W) consumingSub := by
  intro keep x y c
  cases keep <;> exact ⟨rfl, rfl⟩

/-- A consuming tail of a chain: every carry-out is kept but the last one, which `keep` decides (R161, R163). -/
def wordTail (op : Bool → Nat → Nat → Instr) (keep : Bool) : List (Nat × Nat) → List Instr
  | [] => []
  | [(x, y)] => [op keep x y]
  | (x, y) :: p :: ps => op true x y :: wordTail op keep (p :: ps)

theorem addTail_eq_wordTail (keep : Bool) (ps : List (Nat × Nat)) :
    addTail keep ps = wordTail consumingAdd keep ps := by
  induction ps using wordTail.induct with
  | case1 => rfl
  | case2 x y => rfl
  | case3 x y p ps ih => exact congrArg (Instr.addcs x y :: ·) ih

theorem subTail_eq_wordTail (keep : Bool) (ps : List (Nat × Nat)) :
    subTail keep ps = wordTail consumingSub keep ps := by
  induction ps using wordTail.induct with
  | case1 => rfl
  | case2 x y => rfl
  | case3 x y p ps ih => exact congrArg (Instr.subcs x y :: ·) ih

section Chains

variable {s : State} {f : Nat → Nat → Bool → Nat × Bool} {op : Bool → Nat → Nat → Instr}
  (hop : PerformsWords s.cfg.W f op)
include hop

/-- A consuming word operation on a defined carry. -/
theorem exec_of_performsWords (keep : Bool) (x y : Nat) (c : Bool) (rs : List Response) :
    exec (op keep x y) { s with carry := .defined c, responses := rs } = .next { s with
      carry := if keep then .defined (f x y c).2 else .undef
      responses := rs ++ [some (f x y c).1] } := by
  obtain ⟨hanswer, hafter⟩ := hop keep x y c
  rw [exec_of_defined fun _ => rfl]
  dsimp only
  rw [hanswer, hafter]

/-- A consuming tail from a defined carry gives the words of the chain, and keeps its final carry when `keep` says so
(or when there is no command). -/
theorem execList_wordTail (keep : Bool) (ps : List (Nat × Nat)) (c : Bool) (rs : List Response) :
    execList (wordTail op keep ps) { s with carry := .defined c, responses := rs } = .next { s with
      carry := if keep = true ∨ ps.length = 0 then .defined (chainWords f c ps).2 else .undef
      responses := rs ++ (chainWords f c ps).1.map some } := by
  induction ps using wordTail.induct generalizing c rs with
  | case1 => simp [wordTail, execList, chainWords]
  | case2 x y =>
    rw [wordTail, execList_cons (exec_of_performsWords hop keep x y c rs)]
    simp [execList, chainWords]
  | case3 x y p ps ih =>
    rw [wordTail, execList_cons (exec_of_performsWords hop true x y c rs), if_pos rfl, ih]
    simp [chainWords]

/-- A consuming tail after a command that reads no carry, as ADDS and SUBS. -/
theorem execList_cons_wordTail {i : Instr} {x y : Nat} (keep : Bool) (ps : List (Nat × Nat))
    (hi : i.consuming = false) (hanswer : i.answer s.cfg.W false = some (f x y false).1)
    (hafter : i.carryAfter s.cfg.W false = .defined (f x y false).2) :
    execList (i :: wordTail op keep ps) s = .next { s with
      carry :=
        if keep = true ∨ ((x, y) :: ps).length = 1 then .defined (chainWords f false ((x, y) :: ps)).2 else .undef
      responses := s.responses ++ (chainWords f false ((x, y) :: ps)).1.map some } := by
  have hfirst := exec_of_defined (i := i) (s := s) (b := false) fun h => absurd (hi.symm.trans h) Bool.false_ne_true
  rw [hanswer, hafter] at hfirst
  rw [execList_cons hfirst, execList_wordTail hop]
  simp [chainWords]

/-- A consuming chain seeded with SETC (R169). -/
theorem execList_setc_wordTail (keep : Bool) (ps : List (Nat × Nat)) (v : Nat) :
    execList (.setc v :: wordTail op keep ps) s = .next { s with
      carry := if keep = true ∨ ps.length = 0 then .defined (chainWords f (decide (v ≠ 0)) ps).2 else .undef
      responses := s.responses ++ none :: (chainWords f (decide (v ≠ 0)) ps).1.map some } := by
  rw [execList_cons (exec_setc_eq v s), execList_wordTail hop, List.append_assoc, List.singleton_append]

end Chains

/-- Settles O37: the chain is ADDS and a consuming tail, and its words are those of one addition of width `N*W`. -/
theorem additionChainAddsMultiWordValues : Obligations.AdditionChainAddsMultiWordValues := by
  intro s keep ps hne hfits
  obtain ⟨⟨x, y⟩, qs, rfl⟩ := List.exists_cons_of_ne_nil hne
  refine ⟨_, chainWords_length .., chainWords_lt (addWords_fst_lt s.cfg.W) false _, multiWord_add hfits false, ?_⟩
  rw [addChain, addTail_eq_wordTail,
    execList_cons_wordTail (consumingAdd_performsWords s.cfg.W) keep qs rfl rfl rfl, chainWords_add_carry hfits]
  rfl

/-- Settles O38: the chain is SUBS and a consuming tail, and its words are those of one subtraction of width `N*W`. -/
theorem subtractionChainSubtractsMultiWordValues : Obligations.SubtractionChainSubtractsMultiWordValues := by
  intro s keep ps hne hfits
  obtain ⟨⟨x, y⟩, qs, rfl⟩ := List.exists_cons_of_ne_nil hne
  refine ⟨_, chainWords_length .., chainWords_lt (subWords_fst_lt s.cfg.W) false _, multiWord_sub_noBorrow hfits, ?_⟩
  rw [subChain, subTail_eq_wordTail,
    execList_cons_wordTail (consumingSub_performsWords s.cfg.W) keep qs rfl rfl rfl, chainWords_sub_borrow hfits]
  rfl

/-- Settles O39: SETC defines the carry a consuming tail starts from. -/
theorem seededChainsCarryTheSeed : Obligations.SeededChainsCarryTheSeed := by
  intro s keep v ps hne hfits
  refine ⟨⟨_, chainWords_length .., multiWord_add hfits _, ?_⟩, _, chainWords_length .., multiWord_sub hfits _, ?_⟩
  · rw [addTail_eq_wordTail, execList_setc_wordTail (consumingAdd_performsWords s.cfg.W), chainWords_add_carry hfits]
    simp [hne]
  · rw [subTail_eq_wordTail, execList_setc_wordTail (consumingSub_performsWords s.cfg.W), chainWords_sub_borrow hfits]
    simp [hne]

/-- Settles O40: the addition chain over the complemented words, seeded with 1, is the subtraction chain. -/
theorem complementChainSubtracts : Obligations.ComplementChainSubtracts := by
  intro s ps hfits
  have hchain := chainWords_complement hfits false
  simp only [Bool.not_false, chainWords_sub_borrow hfits, Bool.toNat_false, Nat.add_zero, ← decide_not,
    not_lt] at hchain
  refine ⟨_, chainWords_length .., multiWord_sub_noBorrow hfits, ?_⟩
  rw [complementChain, addTail_eq_wordTail, execList_setc_wordTail (consumingAdd_performsWords s.cfg.W),
    decide_eq_true Nat.one_ne_zero, hchain]
  simp

/-- Settles O41: two commands, the second on the carry the first defined. -/
theorem oneCarryServesAddAndSubtract : Obligations.OneCarryServesAddAndSubtract := by
  intro s a b p q ha hb
  constructor
  · rw [execList_cons (exec_adds_eq a b s)]
    refine (execList_cons (exec_of_defined fun _ => rfl)).trans ?_
    simp [execList, Instr.answer, Instr.carryAfter, subWords, modWord, exactDiff]
  · rw [execList_cons (exec_subs_eq ha hb)]
    refine (execList_cons (exec_of_defined fun _ => rfl)).trans ?_
    simp [execList, Instr.answer, Instr.carryAfter, addWords_fst]

end Sys2Proof.Machine
end

section
/-! The assembly lines (`30_encoding.md` section 6): what the parser makes of a line with and without a result name. -/

namespace Sys2Proof.Assembly

/-- A line in assembly form with a result name, of a command that gives a result. -/
theorem parse_with_result {W : Nat} {rd m : String} {rest : List Token} {i : Instr}
    (hbody : body m rest = some (false, i)) (hresult : hasResult i = true) (hwf : i.wf W = true) :
    parse W (.name rd :: .equals :: .name m :: rest) = some ⟨some rd, i⟩ := by
  simp only [parse, hbody, hresult, hwf, Bool.and_self, if_true]

/-- A line in assembly form of a command that gives no result. -/
theorem parse_without_result {W : Nat} {m : String} {rest : List Token} {i : Instr}
    (hline : rest.head? ≠ some .equals) (hbody : body m rest = some (false, i)) (hresult : hasResult i = false)
    (hwf : i.wf W = true) : parse W (.name m :: rest) = some ⟨none, i⟩ := by
  unfold parse
  split
  · next heq => cases heq; exact absurd rfl hline
  · next heq => cases heq; simp [hbody, hresult, hwf]
  · next hno => exact absurd rfl (hno m rest)

/-- Settles O7: the parser reads the mnemonic and the operands of each command's line. -/
theorem assemblyLinesReadBack : Obligations.AssemblyLinesReadBack := by
  intro W rd i hwf
  cases i with
  | decl => exact parse_without_result (by simp) (by simp [body, command]) rfl hwf
  | setc v => exact parse_without_result (by simp) (by simp [body, command]) rfl hwf
  | getc => exact parse_with_result (by simp [body, command]) rfl hwf
  | adds x y | addc x y | addcs x y | subs x y | subc x y | subcs x y =>
    exact parse_with_result (by simp [body, command]) rfl hwf

end Sys2Proof.Assembly
end
